-- ==== Sys2Proof/Word.lean ====
section
/-! DEFINITION. The machine's words: the byte (R9), the u32 (R9), and the 16-bit command word (R90).
Offsets, lengths and sums of lengths are naturals and never wrap (R9), so they are `Nat`. -/

namespace Sys2Proof

/-- R9: "A **byte** is an integer 0..255 (8 bits)." -/
abbrev Byte := BitVec 8

/-- R9: "A **u32** is an integer 0..2^32-1." -/
abbrev U32 := BitVec 32

/-- R90: "Every command is one 16-bit command word." -/
abbrev CommandWord := BitVec 16

end Sys2Proof
end

