-- ==== Sys2Proof/Config.lean ====
section
/-! DEFINITION. The parameters of R8 that a block is built with: `LEN_MAX`, and the three OPEN capacities.
The capacities are a value that every `State` carries (log entry 4), so a statement about all states is a
statement about all capacities. The fixed byte and CRC constants of R8 stand in Machine/Params.lean. -/

namespace Sys2Proof

/-- R8 `LEN_MAX`: the largest payload length, `2^32 - 1`. -/
abbrev lenMax : Nat := 4294967295

/-- R8: the three OPEN parameters. `none` is "unbounded". `CAP_PAYLOAD` is "a natural number not above
`LEN_MAX`", which is a bound on one field, hence a `Fin`. -/
structure Capacities where
  /-- `CAP_STREAM`: the capacity in bytes of each of `I` and `O`. -/
  stream : Option Nat
  /-- `CAP_PAYLOAD`: the capacity in bytes of one chunk's payload store. -/
  payload : Fin (lenMax + 1)
  /-- `CAP_CHUNKS`: the capacity in chunks of the container store. -/
  chunks : Option Nat
deriving DecidableEq, Repr

/-- R8: "with all three capacities unbounded (and `CAP_PAYLOAD = LEN_MAX`) the block has exactly the
document's behaviour". -/
def Capacities.unbounded : Capacities :=
  { stream := none, payload := ⟨lenMax, by decide⟩, chunks := none }

end Sys2Proof
end

