-- ==== Sys2Proof/Syntax.lean ====
section
/-! DEFINITION. The command set (R3, R93): one constructor per row of spec/opcode_table.json, in the table's
order. Register operands are implicit (R91); three commands carry the immediate byte `imm8` (R92). -/

namespace Sys2Proof

/-- R93: the 35 commands. -/
inductive Instr where
  | nop
  | inClr
  | inPush (imm8 : Byte)
  | outClr
  | movIo
  | beEnc
  | beDec (imm8 : Byte)
  | crcInit
  | crcUpd (imm8 : Byte)
  | crcUpdi
  | crcFin
  | tcNew
  | tcNewt
  | tcValid
  | tcCrit
  | tcPub
  | tcRsv
  | tcSafe
  | tcBytes
  | tcText
  | tcEq
  | chNew
  | chLen
  | chCrc
  | chType
  | chData
  | chText
  | chSer
  | chParse
  | ctNew
  | ctParse
  | ctSer
  | ctAppend
  | ctFind
  | ctRemove
deriving DecidableEq, Repr

end Sys2Proof
end

