-- ==== Sys2Proof/WellFormed.lean ====
section
/-! DEFINITION. Which command words are well formed (R93 to R96). Every term of `Instr` is a well-formed
command (its only field is a byte, and R95 makes all 256 values legal where a command takes `imm8`), so the
checks are those of the WORD: its opcode is assigned, and its immediate is zero where the command takes none.
They are written from R94 and R95, independently of the decoder. -/

namespace Sys2Proof

/-- R91: `op = word[15:8]`. -/
def wordOp (w : CommandWord) : Byte := w.extractLsb' 8 8

/-- R91: `imm8 = word[7:0]`. -/
def wordImm (w : CommandWord) : Byte := w.extractLsb' 0 8

/-- R94: the reserved opcodes are `0x05`-`0x0F`, `0x12`-`0x1F`, `0x24`-`0x2F`, `0x3A`-`0x3F`, `0x48`-`0x4F`
and `0x56`-`0xFF`. -/
def opReserved (op : Byte) : Bool :=
  let n := op.toNat
  (0x05 ≤ n && n ≤ 0x0F) || (0x12 ≤ n && n ≤ 0x1F) || (0x24 ≤ n && n ≤ 0x2F)
    || (0x3A ≤ n && n ≤ 0x3F) || (0x48 ≤ n && n ≤ 0x4F) || 0x56 ≤ n

/-- R95: the three commands that use `imm8`: `IN.PUSH`, `BE.DEC`, `CRC.UPD`. -/
def opTakesImm (op : Byte) : Bool :=
  op == 0x02 || op == 0x11 || op == 0x21

/-- R94: the opcode of the word is assigned. -/
def wordOpAssigned (w : CommandWord) : Bool := !opReserved (wordOp w)

/-- R95: in a command that takes no immediate, `imm8` is `0x00`. -/
def wordImmAllowed (w : CommandWord) : Bool := opTakesImm (wordOp w) || wordImm w == 0

/-- R96: "a word is one of the 35 commands or it faults": the words that are commands. -/
def wordWellFormed (w : CommandWord) : Bool := wordOpAssigned w && wordImmAllowed w

end Sys2Proof
end

