-- ==== Sys2Proof/Decode.lean ====
section
/-! DEFINITION. The decoder of R91 to R96 (total, rejecting by name), the encoder written from the same map,
the byte form of a listing (R97), and the pseudo-instructions of R99. -/

namespace Sys2Proof

/-- Why a word (or a listing) is no command. Both reserved cases are the `IllegalCommand` fault when the
word is presented to the block (R311); `oddByte` concerns a listing only, which the block never reads. -/
inductive DecodeError where
  /-- R94: the opcode is not in the map. -/
  | reservedOpcode
  /-- R95: a nonzero `imm8` in a command that takes none. -/
  | reservedImmediate
  /-- R97: a listing with a single byte left over. -/
  | oddByte
deriving DecidableEq, Repr

/-- R95: a command without immediate accepts only `imm8 = 0`. -/
def noImm (imm : Byte) (i : Instr) : Except DecodeError Instr :=
  if imm = 0 then .ok i else .error .reservedImmediate

/-- R93: the opcode map, applied to an opcode and its immediate byte. -/
def decodeOp (op imm : Byte) : Except DecodeError Instr :=
  match op.toNat with
  | 0x00 => noImm imm .nop
  | 0x01 => noImm imm .inClr
  | 0x02 => .ok (.inPush imm)
  | 0x03 => noImm imm .outClr
  | 0x04 => noImm imm .movIo
  | 0x10 => noImm imm .beEnc
  | 0x11 => .ok (.beDec imm)
  | 0x20 => noImm imm .crcInit
  | 0x21 => .ok (.crcUpd imm)
  | 0x22 => noImm imm .crcUpdi
  | 0x23 => noImm imm .crcFin
  | 0x30 => noImm imm .tcNew
  | 0x31 => noImm imm .tcNewt
  | 0x32 => noImm imm .tcValid
  | 0x33 => noImm imm .tcCrit
  | 0x34 => noImm imm .tcPub
  | 0x35 => noImm imm .tcRsv
  | 0x36 => noImm imm .tcSafe
  | 0x37 => noImm imm .tcBytes
  | 0x38 => noImm imm .tcText
  | 0x39 => noImm imm .tcEq
  | 0x40 => noImm imm .chNew
  | 0x41 => noImm imm .chLen
  | 0x42 => noImm imm .chCrc
  | 0x43 => noImm imm .chType
  | 0x44 => noImm imm .chData
  | 0x45 => noImm imm .chText
  | 0x46 => noImm imm .chSer
  | 0x47 => noImm imm .chParse
  | 0x50 => noImm imm .ctNew
  | 0x51 => noImm imm .ctParse
  | 0x52 => noImm imm .ctSer
  | 0x53 => noImm imm .ctAppend
  | 0x54 => noImm imm .ctFind
  | 0x55 => noImm imm .ctRemove
  | _ => .error .reservedOpcode

/-- R91, R93 to R96: the command a word stands for. -/
def decodeWord (w : CommandWord) : Except DecodeError Instr :=
  decodeOp (wordOp w) (wordImm w)

/-- R93: the opcode of a command. -/
def opcodeOf : Instr → Byte
  | .nop => 0x00
  | .inClr => 0x01
  | .inPush _ => 0x02
  | .outClr => 0x03
  | .movIo => 0x04
  | .beEnc => 0x10
  | .beDec _ => 0x11
  | .crcInit => 0x20
  | .crcUpd _ => 0x21
  | .crcUpdi => 0x22
  | .crcFin => 0x23
  | .tcNew => 0x30
  | .tcNewt => 0x31
  | .tcValid => 0x32
  | .tcCrit => 0x33
  | .tcPub => 0x34
  | .tcRsv => 0x35
  | .tcSafe => 0x36
  | .tcBytes => 0x37
  | .tcText => 0x38
  | .tcEq => 0x39
  | .chNew => 0x40
  | .chLen => 0x41
  | .chCrc => 0x42
  | .chType => 0x43
  | .chData => 0x44
  | .chText => 0x45
  | .chSer => 0x46
  | .chParse => 0x47
  | .ctNew => 0x50
  | .ctParse => 0x51
  | .ctSer => 0x52
  | .ctAppend => 0x53
  | .ctFind => 0x54
  | .ctRemove => 0x55

/-- R92, R95: the immediate byte of a command, zero where it takes none. -/
def immOf : Instr → Byte
  | .inPush imm8 => imm8
  | .beDec imm8 => imm8
  | .crcUpd imm8 => imm8
  | .nop | .inClr | .outClr | .movIo | .beEnc | .crcInit | .crcUpdi | .crcFin | .tcNew | .tcNewt | .tcValid
  | .tcCrit | .tcPub | .tcRsv | .tcSafe | .tcBytes | .tcText | .tcEq | .chNew | .chLen | .chCrc | .chType
  | .chData | .chText | .chSer | .chParse | .ctNew | .ctParse | .ctSer | .ctAppend | .ctFind | .ctRemove => 0

/-- R93: "For a command without immediate the word is `op * 256`; with one, `op * 256 + imm8`": the opcode
byte above the immediate byte. -/
def encode (i : Instr) : CommandWord := opcodeOf i ++ immOf i

/-- R97: a word written as bytes is "two bytes, opcode byte first, then `imm8`". -/
def encodeBytes (i : Instr) : List Byte := [opcodeOf i, immOf i]

/-- R97: the first command of a listing, with the bytes after it. -/
def decodeBytes : List Byte → Except DecodeError (Instr × List Byte)
  | op :: imm :: rest =>
      match decodeOp op imm with
      | .ok i => .ok (i, rest)
      | .error e => .error e
  | _ => .error .oddByte

/-- R97: a whole listing, two bytes a command. -/
def decodeListing : List Byte → Except DecodeError (List Instr)
  | [] => .ok []
  | [_] => .error .oddByte
  | op :: imm :: rest =>
      match decodeOp op imm with
      | .error e => .error e
      | .ok i =>
          match decodeListing rest with
          | .error e => .error e
          | .ok is => .ok (i :: is)

/-- R97: the bytes of a listing. -/
def encodeListing (is : List Instr) : List Byte := is.flatMap encodeBytes

/-- The command word whose bits are `w`, of which the table gives `nbits`; the word is bits 15..0 (R91), and
every bit from `nbits` up is 0. -/
def commandWordOf (nbits w : Nat) : CommandWord := BitVec.ofNat 16 (w % 2 ^ nbits)

/-- The instruction the decoder reads from the table's bits `w`. A command word is a value on the command
interface and not bytes in a memory (R97), so there is no byte order to lay it out in. -/
def decodeTableWord (nbits w : Nat) : Option Instr :=
  match decodeWord (commandWordOf nbits w) with
  | .ok i => some i
  | .error _ => none

/-- R99 `IN.BYTES b0 ... bn-1`: `IN.CLR` then one `IN.PUSH` for each byte. -/
def expandInBytes (bs : List Byte) : List Instr := .inClr :: bs.map .inPush

/-- R99 `LD.R v`: `IN.BYTES` of the four bytes of `v`, most significant first, then `BE.DEC 0`. -/
def expandLdR (v : U32) : List Instr :=
  expandInBytes [v.extractLsb' 24 8, v.extractLsb' 16 8, v.extractLsb' 8 8, v.extractLsb' 0 8] ++ [.beDec 0]

end Sys2Proof
end

