-- ==== Sys2Proof/Machine/State.lean ====
section
/-! DEFINITION. The machine's state as plain data: the ten elements of R20 under the spec's own names, and two
fields of the model's own (`caps`, `pending`; log entries 1 and 4). A register whose valid bit is 0 holds no
value (R11, R46), so `T`, `K` and `P` are options. No length or checksum is stored (R32), and there is no
program counter (R40). -/

namespace Sys2Proof.Machine

/-- R25, R13: four bytes in sequence order. That all four are letters is an invariant (`State.wf`). -/
structure TypeCode where
  b0 : Byte
  b1 : Byte
  b2 : Byte
  b3 : Byte
deriving DecidableEq, Repr

/-- R27, R13: a chunk is a type code and a payload; "both derived, never stored redundantly" are its length
and checksum. -/
structure Chunk where
  type : TypeCode
  data : List Byte
deriving DecidableEq, Repr

/-- R350, R340: what the host may present between two commands. -/
inductive HostEvent where
  /-- The host presents a command word. -/
  | command (w : CommandWord)
  /-- The host asserts reset (R340: "an event outside the command stream"). -/
  | reset
deriving DecidableEq, Repr

/-- The reasons a step could stop with a fault. There are NONE, so no constructor and nobody who raises one:
the spec's failures and faults all leave a state the host can read (R320, R321), and that is a next state
here (log entry 9). -/
inductive Fault where
deriving DecidableEq, Repr

/-- The reasons a step gives no result. -/
inductive Refusal where
  /-- Raised by an arm of `exec` whose instruction has no meaning yet; no arm is so. Safe: nothing is claimed
  of what follows. -/
  | notModelled (mnemonic : String)
  /-- Raised by `CH.LEN`, `CH.SER` and `CT.SER` in a state that holds a payload longer than `LEN_MAX`, which
  no run reaches (`CAP_PAYLOAD <= LEN_MAX`). 93_implementation_defined.md U1: "`refuse`: the model gives no
  result ... Never reduce the length modulo 2^32". Safe (log entry 6). -/
  | payloadTooLong
deriving DecidableEq, Repr

/-- R20: the complete architectural state, and the model's own `caps` and `pending`. -/
structure State where
  /-- R22: the scalar operand and result register. -/
  R : U32
  /-- R24: the running CRC register, before the final xor. -/
  C : U32
  /-- R25: the type-code register; `none` is `T.v = 0`. -/
  T : Option TypeCode
  /-- R27: the chunk register; `none` is `K.v = 0`. -/
  K : Option Chunk
  /-- R29: the container store; `none` is `P.v = 0`. Index 0 is the chunk read or appended first. -/
  P : Option (List Chunk)
  /-- R33: the input buffer, offset 0 first. -/
  I : List Byte
  /-- R34: the output buffer, offset 0 first. -/
  O : List Byte
  /-- R35: the status register. -/
  S : BitVec 8
  /-- R37: the found flag of the last `CT.FIND`. -/
  F : Bool
  /-- R38: the sticky fault register, bit 0 `ILL`, bit 1 `EMP`, bit 2 `CAP`. -/
  FLT : BitVec 3
  /-- R8's capacities, constant for the life of the block (R21). The model's own field (log entry 4). -/
  caps : Capacities
  /-- What the host has presented and the block has not yet taken, oldest first. The model's own field
  (log entry 1). -/
  pending : List HostEvent
deriving DecidableEq, Repr

/-- R46, R341: every state element after reset, for a block of the given capacities, with the given events
still to come from the host. -/
def State.resetWith (caps : Capacities) (pending : List HostEvent) : State :=
  { R := 0x00000000, C := 0xFFFFFFFF, T := none, K := none, P := none, I := [], O := [],
    S := 0x00, F := false, FLT := 0, caps := caps, pending := pending }

/-- R46: the machine after reset. DESIGN CHOICE (log entries 1 and 4): its capacities are the document's
(unbounded, `CAP_PAYLOAD = LEN_MAX`), and the host has presented nothing. -/
def State.reset : State := State.resetWith Capacities.unbounded []

end Sys2Proof.Machine
end

