-- ==== Sys2Proof/Machine/Flags.lean ====
section
/-! DEFINITION. The status, flag and fault registers (R35, R37, R38): the kinds, their codes (R301), the bits of
`FLT`, and the predicate results that go to `R` (R12 `zext_32`). -/

namespace Sys2Proof.Machine

/-- R301: the document's nine failure kinds, in the order of their codes. -/
inductive FailKind where
  | nonAlphabeticByte
  | wrongLength
  | truncated
  | lengthMismatch
  | invalidType
  | checksumMismatch
  | badSignature
  | notFound
  | notUtf8Text
deriving DecidableEq, Repr

/-- R301, R14: the three hardware faults. -/
inductive HwFault where
  | illegalCommand
  | emptyOperand
  | capacity
deriving DecidableEq, Repr

/-- R301: the code of success. -/
def okCode : BitVec 8 := 0x00

/-- R301: the code of a failure kind. -/
def failCode : FailKind → BitVec 8
  | .nonAlphabeticByte => 0x01
  | .wrongLength => 0x02
  | .truncated => 0x03
  | .lengthMismatch => 0x04
  | .invalidType => 0x05
  | .checksumMismatch => 0x06
  | .badSignature => 0x07
  | .notFound => 0x08
  | .notUtf8Text => 0x09

/-- R301: the code of a hardware fault. -/
def faultCode : HwFault → BitVec 8
  | .illegalCommand => 0x80
  | .emptyOperand => 0x81
  | .capacity => 0x82

/-- R38: bit 0 `ILL`, bit 1 `EMP`, bit 2 `CAP`. -/
def faultBit : HwFault → BitVec 3
  | .illegalCommand => 0b001
  | .emptyOperand => 0b010
  | .capacity => 0b100

/-- R38, R321: "the fault's bit of `FLT` is set"; the other bits stay (the register is sticky). -/
def setFault (k : HwFault) (flt : BitVec 3) : BitVec 3 := flt ||| faultBit k

/-- R35: "Legal values: `0x00`-`0x09`, `0x80`-`0x82`". -/
def statusLegal (v : BitVec 8) : Bool :=
  v.toNat ≤ 0x09 || (0x80 ≤ v.toNat && v.toNat ≤ 0x82)

/-- R316: "A host that wants the coarse view tests `0x03 <= S <= 0x07`": some parse error. -/
def statusIsParseError (v : BitVec 8) : Bool := 0x03 ≤ v.toNat && v.toNat ≤ 0x07

/-- R12 `zext_32` of a 1-bit predicate result: 1 or 0, upper bits 0. -/
def zext32 (b : Bool) : U32 := if b then 1 else 0

/-- R37: the value of `F` after a search, 1 when it found a chunk. -/
def foundFlag {α : Type} (r : Option α) : Bool := r.isSome

end Sys2Proof.Machine
end

