-- ==== Sys2Proof/Machine/Params.lean ====
section
/-! DEFINITION. The fixed byte and CRC parameters of R8 and R165. They are constants: no command can write
them (R21, R328). They stand here and not in Config.lean so that they can be mended like a meaning. -/

namespace Sys2Proof.Machine

/-- R8 `SIG`: the 8-byte container signature `89 50 4E 47 0D 0A 1A 0A`. -/
def sig : List Byte := [0x89, 0x50, 0x4E, 0x47, 0x0D, 0x0A, 0x1A, 0x0A]

/-- R8, R165 `CRC_POLY`: the generator polynomial without its `x^32` term, normal form. -/
def crcPoly : U32 := 0x04C11DB7

/-- R8, R165 `CRC_POLY_R`: the same polynomial, bit-reflected. -/
def crcPolyR : U32 := 0xEDB88320

/-- R8, R165 `CRC_INIT`: the initial register value. -/
def crcInitValue : U32 := 0xFFFFFFFF

/-- R8, R165 `CRC_XOROUT`: the value xored into the final register. -/
def crcXorOut : U32 := 0xFFFFFFFF

end Sys2Proof.Machine
end

