-- ==== Sys2Proof/Machine/Ops.lean ====
section
/-! DEFINITION. The shared operations: reading a byte space (R12, R61), the capacity tests (R313), the execution
envelope with its three ends (R300), taking a failure or a fault (R320, R321), reset, which alone undoes a
fault (R341), and taking the host's next event (R72, R350). -/

namespace Sys2Proof.Machine

/-! ### The byte spaces -/

/-- One byte of a space, by its offset (R60): none at or beyond the length. -/
def readByte (buf : List Byte) (addr : Nat) : Option Byte := buf[addr]?

/-- R12 `MemRead(buf, addr, n)`: the bytes `buf[addr .. addr+n)`. Where the space ends sooner the answer is
shorter than `n`, and every use tests that (R61: "never reads outside the sequence"). -/
def memRead (buf : List Byte) (addr n : Nat) : List Byte := (buf.drop addr).take n

/-- A length is within a capacity (R8; `none` is "unbounded"). -/
def withinCap (cap : Option Nat) (n : Nat) : Bool :=
  match cap with
  | none => true
  | some m => n ≤ m

/-- `len = CAP`, the test of R132 and R273 before one element is added (log entry 8). -/
def atCap (cap : Option Nat) (n : Nat) : Bool :=
  match cap with
  | none => false
  | some m => n = m

/-- A payload is within `CAP_PAYLOAD` (R27). -/
def payloadFits (caps : Capacities) (d : List Byte) : Bool := d.length ≤ caps.payload.val

/-- R20, R60: every byte space and the container store are within their capacities. This is the canonical form
of the block's memory: a space is its bytes in offset order, and nothing else is listed (log entry 7). -/
def Memory.wf (s : State) : Bool :=
  withinCap s.caps.stream s.I.length
    && withinCap s.caps.stream s.O.length
    && s.K.all (fun k => payloadFits s.caps k.data)
    && s.P.all (fun q => withinCap s.caps.chunks q.length && q.all (fun c => payloadFits s.caps c.data))

/-! ### The envelope -/

/-- R300: how the body of a command ends. `done s` holds the assignments the body commits; `refuse` is the
model's own (log entry 6). -/
inductive Ending where
  | done (s : State)
  | raise (k : FailKind)
  | fault (k : HwFault)
  | refuse (r : Refusal)
deriving DecidableEq, Repr

/-- R300: "on normal end : commit body's assignments ; S <- 0x00". -/
def State.endNormally (s : State) : State := { s with S := okCode }

/-- R320 `raise Kind`: `S <- code(Kind)`, and no other state changes. -/
def State.raise (s : State) (k : FailKind) : State := { s with S := failCode k }

/-- R321 `fault Kind`: `S <- code(Kind)`, the fault's bit of `FLT` is set, and no other state changes. Nothing
is saved and control goes nowhere (R323): what follows is that the block executes nothing (R36). -/
def State.takeFault (s : State) (k : HwFault) : State :=
  { s with S := faultCode k, FLT := setFault k s.FLT }

/-- R341: reset, the only return from a fault. Every element takes its value of R46; "the capacities ... are the
same before and after". What the host presents later is not the block's to forget (log entry 5). -/
def State.resetBlock (s : State) : State := State.resetWith s.caps s.pending

/-- R300: the three ends of a command that ran at `s` (and the model's refusal). A failure and a fault start from
`s` itself, so nothing the body computed is kept: "all checks precede all writes" (R320). -/
def settle (s : State) (e : Ending) : Host.Outcome State Fault Refusal :=
  match e with
  | .done s' => .next s'.endNormally
  | .raise k => .next (s.raise k)
  | .fault k => .next (s.takeFault k)
  | .refuse r => .refused r

/-- R300: the envelope every command runs in. The body runs on a copy of the state; while `FLT != 0` nothing
happens at all, `S` included. -/
def envelope (body : State → Ending) (s : State) : Host.Outcome State Fault Refusal :=
  if s.FLT ≠ 0 then .next s else settle s (body s)

/-- R300, R311: a word that decodes to no command, presented to the block: the `IllegalCommand` fault. -/
def execReserved (s : State) : Host.Outcome State Fault Refusal :=
  envelope (fun _ => .fault .illegalCommand) s

/-! ### Results -/

/-- R34, R12 `O <- O ++ v`: append to the output buffer, or the `Capacity` fault where it lacks room (R313). -/
def appendO (s : State) (v : List Byte) : Ending :=
  if withinCap s.caps.stream (s.O.length + v.length) then .done { s with O := s.O ++ v }
  else .fault .capacity

/-- A 32-bit result goes to `R` (R22). -/
def putR (s : State) (v : U32) : Ending := .done { s with R := v }

/-- R28, R313: a whole chunk goes to `K`, if its payload fits. -/
def putK (s : State) (c : Chunk) : Ending :=
  if payloadFits s.caps c.data then .done { s with K := some c } else .fault .capacity

/-! ### The host -/

/-- What the block takes from the host at a step. -/
inductive Taken where
  | nothing
  | reset (s : State)
  | command (w : CommandWord) (s : State)
deriving DecidableEq, Repr

/-- R72, R345: the host's events are taken one at a time, in the order presented. A word is taken from the host
even while the block is faulted and ignores it (R36; log entry 3). -/
def takeEvent (s : State) : Taken :=
  match s.pending with
  | [] => .nothing
  | .reset :: rest => .reset { s with pending := rest }
  | .command w :: rest => .command w { s with pending := rest }

/-- The host presents one more event before those already presented. -/
def presentFirst (e : HostEvent) (s : State) : State := { s with pending := e :: s.pending }

/-- R350: what the host can read between commands: `R`, `C`, `S`, `F`, `FLT`, `O`, and for inspection `I` and the
valid bits. -/
structure HostView where
  R : U32
  C : U32
  S : BitVec 8
  F : Bool
  FLT : BitVec 3
  O : List Byte
  I : List Byte
  Tv : Bool
  Kv : Bool
  Pv : Bool
deriving DecidableEq, Repr

/-- R350: the host's reading of a state; it changes nothing (R69). -/
def State.hostView (s : State) : HostView :=
  { R := s.R, C := s.C, S := s.S, F := s.F, FLT := s.FLT, O := s.O, I := s.I,
    Tv := s.T.isSome, Kv := s.K.isSome, Pv := s.P.isSome }

end Sys2Proof.Machine
end

