-- ==== Sys2Proof/Machine/Operands.lean ====
section
/-! DEFINITION. The operand forms. Register operands are implicit (R91), so a form is: which of `T`, `K`, `P` a
command needs (R312: reading one whose valid bit is 0 is the `EmptyOperand` fault, before anything is
computed, R322), the u32 field at an offset of a byte space (R68), and the immediate as an offset (R92). -/

namespace Sys2Proof.Machine

/-- R151: the u32 of four bytes, first byte most significant. -/
def be32pack (b0 b1 b2 b3 : Byte) : U32 := b0 ++ b1 ++ b2 ++ b3

/-- R151 `be32dec(b)`: "undefined on a sequence of any other length", hence an option; every use tests it. -/
def be32dec : List Byte → Option U32
  | [b0, b1, b2, b3] => some (be32pack b0 b1 b2 b3)
  | _ => none

/-- R150 `be32enc(v)`: `[v[31:24], v[23:16], v[15:8], v[7:0]]`. -/
def be32enc (v : U32) : List Byte :=
  [v.extractLsb' 24 8, v.extractLsb' 16 8, v.extractLsb' 8 8, v.extractLsb' 0 8]

/-- R68: the u32 field at offset `a` of `buf`; none where fewer than 4 bytes lie at and after `a`, that is when
`a + 4 > len(buf)` over the naturals (R155). -/
def fieldAt (buf : List Byte) (a : Nat) : Option U32 := be32dec (memRead buf a 4)

/-- R92: the immediate as a byte offset into `I`, an unsigned byte used as is. -/
def immOffset (imm8 : Byte) : Nat := imm8.toNat

/-- The four bytes of a type code, in order (R198 `raw_bytes`). -/
def TypeCode.bytes (t : TypeCode) : List Byte := [t.b0, t.b1, t.b2, t.b3]

/-- The type code of a sequence of exactly 4 bytes (R13), none for any other length. -/
def TypeCode.ofBytes : List Byte → Option TypeCode
  | [b0, b1, b2, b3] => some { b0 := b0, b1 := b1, b2 := b2, b3 := b3 }
  | _ => none

/-- R23 `unpack`: `R` as four bytes, `b0 = R[31:24]` first. -/
def TypeCode.ofU32 (v : U32) : TypeCode :=
  { b0 := v.extractLsb' 24 8, b1 := v.extractLsb' 16 8, b2 := v.extractLsb' 8 8, b3 := v.extractLsb' 0 8 }

/-- R23 `pack`: byte 0 in `R[31:24]`. -/
def TypeCode.toU32 (t : TypeCode) : U32 := be32pack t.b0 t.b1 t.b2 t.b3

/-- R312: a command that needs `T`. -/
def needT (s : State) (f : TypeCode → Ending) : Ending :=
  match s.T with
  | none => .fault .emptyOperand
  | some t => f t

/-- R312: a command that needs `K`. -/
def needK (s : State) (f : Chunk → Ending) : Ending :=
  match s.K with
  | none => .fault .emptyOperand
  | some k => f k

/-- R312: a command that needs `P`. -/
def needP (s : State) (f : List Chunk → Ending) : Ending :=
  match s.P with
  | none => .fault .emptyOperand
  | some q => f q

end Sys2Proof.Machine
end

