-- ==== Sys2Proof/Machine/Be32.lean ====
section
/-! DEFINITION. The BE32 unit's commands (41_be32.md): `BE.ENC`, `BE.DEC`. Its functions `be32enc` and `be32dec`
are operand forms of the framer too and stand in Operands.lean. -/

namespace Sys2Proof.Machine

/-- R153 `BE.ENC`: `O <- O ++ be32enc(R)`. -/
def execBeEnc (s : State) : Host.Outcome State Fault Refusal :=
  envelope (fun s => appendO s (be32enc s.R)) s

/-- R154 `BE.DEC imm8`: `R <- be32dec(MemRead(I, off, 4))`, or `Truncated` where `off + 4 > len(I)`. -/
def execBeDec (imm8 : Byte) (s : State) : Host.Outcome State Fault Refusal :=
  envelope (fun s =>
    match fieldAt s.I (immOffset imm8) with
    | none => .raise .truncated
    | some v => putR s v) s

end Sys2Proof.Machine
end

