-- ==== Sys2Proof/Machine/Buffer.lean ====
section
/-! DEFINITION. The buffer commands (40_buffer_commands.md): `NOP`, `IN.CLR`, `IN.PUSH`, `OUT.CLR`, `MOV.IO`. -/

namespace Sys2Proof.Machine

/-- R130 `NOP`: changes nothing but `S`. -/
def execNop (s : State) : Host.Outcome State Fault Refusal :=
  envelope (fun s => .done s) s

/-- R131 `IN.CLR`: `I <- []`. -/
def execInClr (s : State) : Host.Outcome State Fault Refusal :=
  envelope (fun s => .done { s with I := [] }) s

/-- R132 `IN.PUSH imm8`: "if len(I) = CAP_STREAM then fault Capacity"; `I <- I ++ [imm8]`. -/
def execInPush (imm8 : Byte) (s : State) : Host.Outcome State Fault Refusal :=
  envelope (fun s =>
    if atCap s.caps.stream s.I.length then .fault .capacity
    else .done { s with I := s.I ++ [imm8] }) s

/-- R133 `OUT.CLR`: `O <- []`. -/
def execOutClr (s : State) : Host.Outcome State Fault Refusal :=
  envelope (fun s => .done { s with O := [] }) s

/-- R134 `MOV.IO`: `I <- O`; `O` is unchanged. -/
def execMovIo (s : State) : Host.Outcome State Fault Refusal :=
  envelope (fun s => .done { s with I := s.O }) s

end Sys2Proof.Machine
end

