-- ==== Sys2Proof/Machine/TypeCodes.lean ====
section
/-! DEFINITION. The type-code checker (43_typecode.md): its functions and the ten `TC.*` commands. -/

namespace Sys2Proof.Machine

/-- R190 `is_alpha(b)`: `0x41 <= b <= 0x5A` or `0x61 <= b <= 0x7A`. -/
def isAlpha (b : Byte) : Bool :=
  (0x41 ≤ b.toNat && b.toNat ≤ 0x5A) || (0x61 ≤ b.toNat && b.toNat ≤ 0x7A)

/-- R191: all four bytes are letters. -/
def TypeCode.isAlpha (t : TypeCode) : Bool :=
  Machine.isAlpha t.b0 && Machine.isAlpha t.b1 && Machine.isAlpha t.b2 && Machine.isAlpha t.b3

/-- Bit 5 (mask `0x20`) of a byte, the case bit of a letter (R193 to R196). -/
def caseBit (b : Byte) : Bool := b.getLsbD 5

/-- R193 `is_critical`: bit 5 of byte 0 is clear. -/
def TypeCode.isCritical (t : TypeCode) : Bool := !caseBit t.b0

/-- R194 `is_public`: bit 5 of byte 1 is clear. -/
def TypeCode.isPublic (t : TypeCode) : Bool := !caseBit t.b1

/-- R195 `is_reserved_bit_valid`: bit 5 of byte 2 is clear. -/
def TypeCode.isReservedBitValid (t : TypeCode) : Bool := !caseBit t.b2

/-- R196 `is_safe_to_copy`: bit 5 of byte 3 is SET. -/
def TypeCode.isSafeToCopy (t : TypeCode) : Bool := caseBit t.b3

/-- R197 `is_valid`: "all four bytes alphabetic AND reserved-bit-valid". -/
def TypeCode.isValid (t : TypeCode) : Bool := t.isAlpha && t.isReservedBitValid

/-- R191 `tc_construct`: the alphabetic test only; the reserved bit is no construction gate. -/
def tcConstruct (t : TypeCode) : Except FailKind TypeCode :=
  if t.isAlpha then .ok t else .error .nonAlphabeticByte

/-- R192 `tc_construct_from_text`: the length test (in bytes) comes first. -/
def tcConstructFromText (text : List Byte) : Except FailKind TypeCode :=
  match TypeCode.ofBytes text with
  | none => .error .wrongLength
  | some t => tcConstruct t

/-- A constructed type code goes to `T` (R26); a failure kind is raised. -/
def putT (s : State) (r : Except FailKind TypeCode) : Ending :=
  match r with
  | .ok t => .done { s with T := some t }
  | .error k => .raise k

/-- R202 to R206: a predicate of `T` goes to `R` as 1 or 0. -/
def predicateOfT (p : TypeCode → Bool) (s : State) : Ending :=
  needT s fun t => putR s (zext32 (p t))

/-- R200 `TC.NEW`: `construct(4 raw bytes)` of the bytes of `R`. -/
def execTcNew (s : State) : Host.Outcome State Fault Refusal :=
  envelope (fun s => putT s (tcConstruct (TypeCode.ofU32 s.R))) s

/-- R201 `TC.NEWT`: `construct_from_text(string)` of the bytes of `I`. -/
def execTcNewt (s : State) : Host.Outcome State Fault Refusal :=
  envelope (fun s => putT s (tcConstructFromText s.I)) s

/-- R202 `TC.VALID`: `is_valid()`. -/
def execTcValid (s : State) : Host.Outcome State Fault Refusal :=
  envelope (predicateOfT TypeCode.isValid) s

/-- R203 `TC.CRIT`: `is_critical()`. -/
def execTcCrit (s : State) : Host.Outcome State Fault Refusal :=
  envelope (predicateOfT TypeCode.isCritical) s

/-- R204 `TC.PUB`: `is_public()`. -/
def execTcPub (s : State) : Host.Outcome State Fault Refusal :=
  envelope (predicateOfT TypeCode.isPublic) s

/-- R205 `TC.RSV`: `is_reserved_bit_valid()`. -/
def execTcRsv (s : State) : Host.Outcome State Fault Refusal :=
  envelope (predicateOfT TypeCode.isReservedBitValid) s

/-- R206 `TC.SAFE`: `is_safe_to_copy()`. -/
def execTcSafe (s : State) : Host.Outcome State Fault Refusal :=
  envelope (predicateOfT TypeCode.isSafeToCopy) s

/-- R207 `TC.BYTES`: `raw_bytes()`, byte 0 in `R[31:24]`. -/
def execTcBytes (s : State) : Host.Outcome State Fault Refusal :=
  envelope (fun s => needT s fun t => putR s t.toU32) s

/-- R208 `TC.TEXT`: `to_text()` appended to `O`. -/
def execTcText (s : State) : Host.Outcome State Fault Refusal :=
  envelope (fun s => needT s fun t => appendO s t.bytes) s

/-- R209 `TC.EQ`: byte-wise equality of `T` and `K.type`. -/
def execTcEq (s : State) : Host.Outcome State Fault Refusal :=
  envelope (fun s => needT s fun t => needK s fun k => putR s (zext32 (t == k.type))) s

end Sys2Proof.Machine
end

