-- ==== Sys2Proof/Machine/Chunks.lean ====
section
/-! DEFINITION. The chunk framer (44_chunk.md): its functions and the eight `CH.*` commands. The checksums are
computed privately: no command here reads or writes `C` (R24, R45). -/

namespace Sys2Proof.Machine

/-! ### UTF-8 -/

/-- R224: the rows of the table of well-formed characters; a row gives the range of each byte in turn. -/
def utf8Rows : List (List (Byte × Byte)) :=
  [[(0x00, 0x7F)],
   [(0xC2, 0xDF), (0x80, 0xBF)],
   [(0xE0, 0xE0), (0xA0, 0xBF), (0x80, 0xBF)],
   [(0xE1, 0xEC), (0x80, 0xBF), (0x80, 0xBF)],
   [(0xED, 0xED), (0x80, 0x9F), (0x80, 0xBF)],
   [(0xEE, 0xEF), (0x80, 0xBF), (0x80, 0xBF)],
   [(0xF0, 0xF0), (0x90, 0xBF), (0x80, 0xBF), (0x80, 0xBF)],
   [(0xF1, 0xF3), (0x80, 0xBF), (0x80, 0xBF), (0x80, 0xBF)],
   [(0xF4, 0xF4), (0x80, 0x8F), (0x80, 0xBF), (0x80, 0xBF)]]

/-- A byte lies in a range, both ends included. -/
def inRange (r : Byte × Byte) (b : Byte) : Bool := r.1.toNat ≤ b.toNat && b.toNat ≤ r.2.toNat

/-- The bytes after a character of this row, if the bytes begin with one. -/
def utf8MatchRow : List (Byte × Byte) → List Byte → Option (List Byte)
  | [], d => some d
  | _ :: _, [] => none
  | r :: rs, b :: d => if inRange r b then utf8MatchRow rs d else none

/-- The bytes after the first character; the rows have disjoint first bytes, so at most one matches. -/
def utf8Next (d : List Byte) : Option (List Byte) := utf8Rows.findSome? (fun row => utf8MatchRow row d)

/-- Cuts characters off until none is left. The first argument bounds the number of characters. -/
def utf8Go : Nat → List Byte → Bool
  | _, [] => true
  | 0, _ :: _ => false
  | n + 1, b :: d =>
      match utf8Next (b :: d) with
      | some rest => utf8Go n rest
      | none => false

/-- R224 `utf8_valid(d)`: `d` is a concatenation of zero or more well-formed characters. A character has at least
one byte, so `len(d)` bounds their number (log entry 12). -/
def utf8Valid (d : List Byte) : Bool := utf8Go d.length d

/-! ### Functions of a chunk -/

/-- R220 `chunk_new(t, d)`. -/
def chunkNew (t : TypeCode) (d : List Byte) : Chunk := { type := t, data := d }

/-- R221 `chunk_length(c)`: `len(d)` as a u32, never reduced modulo 2^32; none above `LEN_MAX` (U1). -/
def chunkLength (c : Chunk) : Option U32 :=
  if c.data.length ≤ lenMax then some (BitVec.ofNat 32 c.data.length) else none

/-- R222 `chunk_checksum(c)`: `crc32(t ++ d)`. -/
def chunkChecksum (c : Chunk) : U32 := crc32 (c.type.bytes ++ c.data)

/-- R225 `chunk_payload_as_text(c)`. -/
def chunkPayloadAsText (c : Chunk) : Except FailKind (List Byte) :=
  if utf8Valid c.data then .ok c.data else .error .notUtf8Text

/-- R226 `chunk_serialize(c)`: length, type, payload, checksum; none above `LEN_MAX` (U1). -/
def chunkSerialize (c : Chunk) : Option (List Byte) :=
  match chunkLength c with
  | none => none
  | some len => some (be32enc len ++ c.type.bytes ++ c.data ++ be32enc (chunkChecksum c))

/-- R227 `chunk_parse(s)`: the checks (a) to (d) in order. The two arms that answer `Truncated` beside check (a)
are never taken: after (a) and (b) every field lies within `s` (log entry 12). -/
def chunkParse (s : List Byte) : Except FailKind Chunk :=
  if s.length < 12 then .error .truncated
  else
    match fieldAt s 0, TypeCode.ofBytes (memRead s 4 4) with
    | some len, some t =>
        if s.length - 12 ≠ len.toNat then .error .lengthMismatch
        else if !t.isAlpha then .error .invalidType
        else
          match fieldAt s (8 + len.toNat) with
          | some x =>
              if chunkChecksum { type := t, data := memRead s 8 len.toNat } ≠ x then .error .checksumMismatch
              else .ok { type := t, data := memRead s 8 len.toNat }
          | none => .error .truncated
    | _, _ => .error .truncated

/-! ### Commands -/

/-- R230 `CH.NEW`: `construct(type, payload)` of `T` and `I`. -/
def execChNew (s : State) : Host.Outcome State Fault Refusal :=
  envelope (fun s => needT s fun t => putK s (chunkNew t s.I)) s

/-- R231 `CH.LEN`: `length()`. -/
def execChLen (s : State) : Host.Outcome State Fault Refusal :=
  envelope (fun s => needK s fun k =>
    match chunkLength k with
    | none => .refuse .payloadTooLong
    | some len => putR s len) s

/-- R232 `CH.CRC`: `checksum()`. -/
def execChCrc (s : State) : Host.Outcome State Fault Refusal :=
  envelope (fun s => needK s fun k => putR s (chunkChecksum k)) s

/-- R233 `CH.TYPE`: `type()`; makes `T` valid even if it was not. -/
def execChType (s : State) : Host.Outcome State Fault Refusal :=
  envelope (fun s => needK s fun k => .done { s with T := some k.type }) s

/-- R234 `CH.DATA`: `payload()` appended to `O`, whatever its bytes. -/
def execChData (s : State) : Host.Outcome State Fault Refusal :=
  envelope (fun s => needK s fun k => appendO s k.data) s

/-- R235 `CH.TEXT`: `payload_as_text()` appended to `O`; `NotUtf8Text` is tested before the room (R322). -/
def execChText (s : State) : Host.Outcome State Fault Refusal :=
  envelope (fun s => needK s fun k =>
    match chunkPayloadAsText k with
    | .error e => .raise e
    | .ok text => appendO s text) s

/-- R236 `CH.SER`: `serialize()` appended to `O`. -/
def execChSer (s : State) : Host.Outcome State Fault Refusal :=
  envelope (fun s => needK s fun k =>
    match chunkSerialize k with
    | none => .refuse .payloadTooLong
    | some out => appendO s out) s

/-- R237 `CH.PARSE`: `parse(byte slice)` of the whole of `I`. -/
def execChParse (s : State) : Host.Outcome State Fault Refusal :=
  envelope (fun s =>
    match chunkParse s.I with
    | .error e => .raise e
    | .ok c => putK s c) s

end Sys2Proof.Machine
end

