-- ==== Sys2Proof/Machine/Containers.lean ====
section
/-! DEFINITION. The sequence container (45_container.md): its functions over a sequence of chunks and the six
`CT.*` commands. -/

namespace Sys2Proof.Machine

/-! ### Functions of a container -/

/-- R260 `container_new()`: the container with no chunks. -/
def containerNew : List Chunk := []

/-- R261: the records of the chunks, concatenated in container order; none above `LEN_MAX` (U1). -/
def serializeRecords : List Chunk → Option (List Byte)
  | [] => some []
  | c :: q =>
      match chunkSerialize c, serializeRecords q with
      | some r, some rs => some (r ++ rs)
      | _, _ => none

/-- R261 `container_serialize(q)`: the signature, then the records. -/
def containerSerialize (q : List Chunk) : Option (List Byte) :=
  match serializeRecords q with
  | some rs => some (sig ++ rs)
  | none => none

/-- R262: the loop over the records. The list is `s[pos .. len(s))`, so dropping a record advances the parse
cursor of R41; sums are over the naturals. The first argument bounds the number of records; a record has at
least 12 bytes, so the length of the list is bound enough and the second arm is never taken (log entry 12). -/
def parseRecords : Nat → List Byte → Except FailKind (List Chunk)
  | _, [] => .ok []
  | 0, _ :: _ => .error .truncated
  | n + 1, b :: s =>
      match fieldAt (b :: s) 0 with
      | none => .error .truncated
      | some len =>
          if (b :: s).length < 12 + len.toNat then .error .truncated
          else
            match chunkParse (memRead (b :: s) 0 (12 + len.toNat)) with
            | .error k => .error k
            | .ok c =>
                match parseRecords n ((b :: s).drop (12 + len.toNat)) with
                | .error k => .error k
                | .ok q => .ok (c :: q)

/-- R262 `container_parse(s)`: the signature test first, then the records. -/
def containerParse (s : List Byte) : Except FailKind (List Chunk) :=
  if s.length < 8 ∨ memRead s 0 8 ≠ sig then .error .badSignature
  else parseRecords s.length (s.drop 8)

/-- R263 `container_append(q, c)`: at the end, with no check of the chunk or its position. -/
def containerAppend (q : List Chunk) (c : Chunk) : List Chunk := q ++ [c]

/-- R264: the type's textual form equals the code, byte-wise; a code of another length matches nothing. -/
def typeMatches (code : List Byte) (c : Chunk) : Bool := c.type.bytes == code

/-- R264 `container_find(q, code)`: the chunk of least index whose type matches. -/
def containerFind : List Chunk → List Byte → Option Chunk
  | [], _ => none
  | c :: q, code => if typeMatches code c then some c else containerFind q code

/-- R265 `container_remove(q, code)`: the first match and the others in their order; none is `NotFound`. -/
def containerRemove : List Chunk → List Byte → Option (Chunk × List Chunk)
  | [], _ => none
  | c :: q, code =>
      if typeMatches code c then some (c, q)
      else
        match containerRemove q code with
        | none => none
        | some (r, rest) => some (r, c :: rest)

/-- R271: "len(r) > CAP_CHUNKS or some len(r[i].data) > CAP_PAYLOAD" does not hold. -/
def containerFits (caps : Capacities) (q : List Chunk) : Bool :=
  withinCap caps.chunks q.length && q.all (fun c => payloadFits caps c.data)

/-! ### Commands -/

/-- R270 `CT.NEW`: a fresh container; one already in `P` is discarded. -/
def execCtNew (s : State) : Host.Outcome State Fault Refusal :=
  envelope (fun s => .done { s with P := some containerNew }) s

/-- R271 `CT.PARSE`: `parse(bytes)` of the whole of `I`. -/
def execCtParse (s : State) : Host.Outcome State Fault Refusal :=
  envelope (fun s =>
    match containerParse s.I with
    | .error k => .raise k
    | .ok q => if containerFits s.caps q then .done { s with P := some q } else .fault .capacity) s

/-- R272 `CT.SER`: `serialize()` appended to `O`. -/
def execCtSer (s : State) : Host.Outcome State Fault Refusal :=
  envelope (fun s => needP s fun q =>
    match containerSerialize q with
    | none => .refuse .payloadTooLong
    | some out => appendO s out) s

/-- R273 `CT.APPEND`: a copy of `K` at the end of `P`; `K` stays valid and unchanged. -/
def execCtAppend (s : State) : Host.Outcome State Fault Refusal :=
  envelope (fun s => needP s fun q => needK s fun k =>
    if atCap s.caps.chunks q.length then .fault .capacity
    else .done { s with P := some (containerAppend q k) }) s

/-- R274 `CT.FIND`: a copy of the first match to `K` and 1 to `F`, or 0 to `F` with `K` unchanged. -/
def execCtFind (s : State) : Host.Outcome State Fault Refusal :=
  envelope (fun s => needP s fun q =>
    match containerFind q s.I with
    | none => .done { s with F := foundFlag (containerFind q s.I) }
    | some c => .done { s with K := some c, F := foundFlag (containerFind q s.I) }) s

/-- R275 `CT.REMOVE`: the first match moves from `P` to `K`; `F` is not written. -/
def execCtRemove (s : State) : Host.Outcome State Fault Refusal :=
  envelope (fun s => needP s fun q =>
    match containerRemove q s.I with
    | none => .raise .notFound
    | some (c, rest) => .done { s with K := some c, P := some rest }) s

end Sys2Proof.Machine
end

