-- ==== Sys2Proof/Machine/Dispatch.lean ====
section
/-! DEFINITION. The dispatch: one arm for each command, one meaning for each arm. -/

namespace Sys2Proof.Machine

/-- R300: a command executed at a state, in its envelope. -/
def exec (i : Instr) (s : State) : Host.Outcome State Fault Refusal :=
  match i with
  | .nop => Sys2Proof.Machine.execNop s
  | .inClr => Sys2Proof.Machine.execInClr s
  | .inPush imm8 => Sys2Proof.Machine.execInPush imm8 s
  | .outClr => Sys2Proof.Machine.execOutClr s
  | .movIo => Sys2Proof.Machine.execMovIo s
  | .beEnc => Sys2Proof.Machine.execBeEnc s
  | .beDec imm8 => Sys2Proof.Machine.execBeDec imm8 s
  | .crcInit => Sys2Proof.Machine.execCrcInit s
  | .crcUpd imm8 => Sys2Proof.Machine.execCrcUpd imm8 s
  | .crcUpdi => Sys2Proof.Machine.execCrcUpdi s
  | .crcFin => Sys2Proof.Machine.execCrcFin s
  | .tcNew => Sys2Proof.Machine.execTcNew s
  | .tcNewt => Sys2Proof.Machine.execTcNewt s
  | .tcValid => Sys2Proof.Machine.execTcValid s
  | .tcCrit => Sys2Proof.Machine.execTcCrit s
  | .tcPub => Sys2Proof.Machine.execTcPub s
  | .tcRsv => Sys2Proof.Machine.execTcRsv s
  | .tcSafe => Sys2Proof.Machine.execTcSafe s
  | .tcBytes => Sys2Proof.Machine.execTcBytes s
  | .tcText => Sys2Proof.Machine.execTcText s
  | .tcEq => Sys2Proof.Machine.execTcEq s
  | .chNew => Sys2Proof.Machine.execChNew s
  | .chLen => Sys2Proof.Machine.execChLen s
  | .chCrc => Sys2Proof.Machine.execChCrc s
  | .chType => Sys2Proof.Machine.execChType s
  | .chData => Sys2Proof.Machine.execChData s
  | .chText => Sys2Proof.Machine.execChText s
  | .chSer => Sys2Proof.Machine.execChSer s
  | .chParse => Sys2Proof.Machine.execChParse s
  | .ctNew => Sys2Proof.Machine.execCtNew s
  | .ctParse => Sys2Proof.Machine.execCtParse s
  | .ctSer => Sys2Proof.Machine.execCtSer s
  | .ctAppend => Sys2Proof.Machine.execCtAppend s
  | .ctFind => Sys2Proof.Machine.execCtFind s
  | .ctRemove => Sys2Proof.Machine.execCtRemove s

end Sys2Proof.Machine
end

