-- ==== Sys2Proof/Machine/Step.lean ====
section
/-! DEFINITION. One step: the block takes the host's oldest event. A command word is executed by the envelope of
R300; a reset sets every element (R341); with nothing presented nothing happens (log entry 2). -/

namespace Sys2Proof.Machine

/-- R300, R340, R72: one step of the machine. -/
def step (s : State) : Host.Outcome State Fault Refusal :=
  match takeEvent s with
  | .nothing => .next s
  | .reset s' => .next s'.resetBlock
  | .command w s' =>
      match decodeWord w with
      | .ok i => exec i s'
      | .error _ => execReserved s'

/-- The instruction whose bits are `w` is the next thing the host presents (log entry 1). -/
def State.withFetchWord (s : State) (nbits w : Nat) : State :=
  presentFirst (.command (commandWordOf nbits w)) s

end Sys2Proof.Machine
end

