-- ==== Sys2Proof/Machine/Asm.lean ====
section
/-! DEFINITION. The assembler's line form (R98) and the two pseudo-instructions in text (R99). It serves to write
command sequences; the block reads none of it (R40). What R98 leaves open of a line is log entry 10. -/

namespace Sys2Proof.Machine

/-- Why a line is no line of R98. -/
inductive AsmError where
  /-- The first word is no mnemonic of R93 or R99. -/
  | unknownMnemonic
  /-- An operand where the command takes none, or none where it takes one, or one that does not read. -/
  | badOperand
deriving DecidableEq, Repr

/-- R93: the mnemonic of a command. -/
def mnemonicOf : Instr → String
  | .nop => "NOP"
  | .inClr => "IN.CLR"
  | .inPush _ => "IN.PUSH"
  | .outClr => "OUT.CLR"
  | .movIo => "MOV.IO"
  | .beEnc => "BE.ENC"
  | .beDec _ => "BE.DEC"
  | .crcInit => "CRC.INIT"
  | .crcUpd _ => "CRC.UPD"
  | .crcUpdi => "CRC.UPDI"
  | .crcFin => "CRC.FIN"
  | .tcNew => "TC.NEW"
  | .tcNewt => "TC.NEWT"
  | .tcValid => "TC.VALID"
  | .tcCrit => "TC.CRIT"
  | .tcPub => "TC.PUB"
  | .tcRsv => "TC.RSV"
  | .tcSafe => "TC.SAFE"
  | .tcBytes => "TC.BYTES"
  | .tcText => "TC.TEXT"
  | .tcEq => "TC.EQ"
  | .chNew => "CH.NEW"
  | .chLen => "CH.LEN"
  | .chCrc => "CH.CRC"
  | .chType => "CH.TYPE"
  | .chData => "CH.DATA"
  | .chText => "CH.TEXT"
  | .chSer => "CH.SER"
  | .chParse => "CH.PARSE"
  | .ctNew => "CT.NEW"
  | .ctParse => "CT.PARSE"
  | .ctSer => "CT.SER"
  | .ctAppend => "CT.APPEND"
  | .ctFind => "CT.FIND"
  | .ctRemove => "CT.REMOVE"

/-- R93: the commands without immediate. -/
def plainInstrs : List Instr :=
  [.nop, .inClr, .outClr, .movIo, .beEnc, .crcInit, .crcUpdi, .crcFin,
   .tcNew, .tcNewt, .tcValid, .tcCrit, .tcPub, .tcRsv, .tcSafe, .tcBytes, .tcText, .tcEq,
   .chNew, .chLen, .chCrc, .chType, .chData, .chText, .chSer, .chParse,
   .ctNew, .ctParse, .ctSer, .ctAppend, .ctFind, .ctRemove]

/-- White space within a line: a space or a tab. -/
def isBlank (c : Char) : Bool := c.toNat == 0x20 || c.toNat == 0x09

/-- A line without white space at either end. -/
def trimBlanks (cs : List Char) : List Char :=
  ((cs.dropWhile isBlank).reverse.dropWhile isBlank).reverse

/-- R98: "A `;` starts a comment to the end of the line." -/
def dropComment (cs : List Char) : List Char := cs.takeWhile (fun c => c.toNat != 0x3B)

/-- The value of a digit below `base`, letters in either case. -/
def digitIn (base : Nat) (c : Char) : Option Nat :=
  let n := c.toNat
  let v := if 0x30 ≤ n ∧ n ≤ 0x39 then n - 0x30
    else if 0x41 ≤ n ∧ n ≤ 0x46 then n - 0x41 + 10
    else if 0x61 ≤ n ∧ n ≤ 0x66 then n - 0x61 + 10
    else base
  if v < base then some v else none

/-- The value of a run of digits after those already read. -/
def digitsFrom (base : Nat) : Nat → List Char → Option Nat
  | acc, [] => some acc
  | acc, c :: cs =>
      match digitIn base c with
      | some d => digitsFrom base (acc * base + d) cs
      | none => none

/-- R98: "a decimal number, a `0x` hexadecimal number". -/
def asmNumber (cs : List Char) : Option Nat :=
  match cs with
  | [] => none
  | '0' :: 'x' :: [] => none
  | '0' :: 'x' :: hs => digitsFrom 16 0 hs
  | _ => digitsFrom 10 0 cs

/-- R98: the operand of a command with an immediate: a number of at most 255, or "a single-quoted ASCII
character". DESIGN CHOICE (log entry 10): the quoted character may be any ASCII character but `;`, the single quote
itself and blanks among them, and there is no escape. -/
def asmByte (cs : List Char) : Option Byte :=
  match cs with
  | [q, c, q'] =>
      if q.toNat = 0x27 ∧ q'.toNat = 0x27 then
        if c.toNat < 128 then some (BitVec.ofNat 8 c.toNat) else none
      else
        match asmNumber cs with
        | some n => if n < 256 then some (BitVec.ofNat 8 n) else none
        | none => none
  | _ =>
      match asmNumber cs with
      | some n => if n < 256 then some (BitVec.ofNat 8 n) else none
      | none => none

/-- The words of a line, white space between them. The first argument bounds their number. -/
def asmWords : Nat → List Char → List (List Char)
  | 0, _ => []
  | n + 1, cs =>
      match cs.dropWhile isBlank with
      | [] => []
      | c :: rest =>
          (c :: rest).takeWhile (fun x => !isBlank x) :: asmWords n ((c :: rest).dropWhile (fun x => !isBlank x))

/-- R9: one byte of "a bare run of two-digit groups ... in hexadecimal". -/
def hexPair (cs : List Char) : Option Byte :=
  match cs with
  | [a, b] =>
      match digitIn 16 a, digitIn 16 b with
      | some x, some y => some (BitVec.ofNat 8 (x * 16 + y))
      | _, _ => none
  | _ => none

/-- R99: the operand of `IN.BYTES`: two-digit hexadecimal bytes, or a double-quoted ASCII string. DESIGN CHOICE (log
entry 10): R99 gives no escape and does not exclude the character, and a string with a double quote inside it is
rejected here; the string stands alone, with nothing after it and no hexadecimal bytes beside it. -/
def asmBytes (cs : List Char) : Option (List Byte) :=
  match cs with
  | [] => some []
  | c :: rest =>
      if c.toNat = 0x22 then
        match rest.reverse with
        | q :: body =>
            if q.toNat = 0x22 ∧ body.all (fun x => x.toNat < 128 && x.toNat != 0x22) then
              some (body.reverse.map (fun x => BitVec.ofNat 8 x.toNat))
            else none
        | [] => none
      else (asmWords cs.length cs).mapM hexPair

/-- R98, R99: the commands a mnemonic and its operand stand for. -/
def asmCommand (mn : String) (operand : List Char) : Except AsmError (List Instr) :=
  let withByte (f : Byte → Instr) : Except AsmError (List Instr) :=
    match asmByte operand with
    | some b => .ok [f b]
    | none => .error .badOperand
  if mn = "IN.PUSH" then withByte .inPush
  else if mn = "BE.DEC" then withByte .beDec
  else if mn = "CRC.UPD" then withByte .crcUpd
  else if mn = "IN.BYTES" then
    match asmBytes operand with
    | some bs => .ok (expandInBytes bs)
    | none => .error .badOperand
  else if mn = "LD.R" then
    match asmNumber operand with
    | some v => if v < 2 ^ 32 then .ok (expandLdR (BitVec.ofNat 32 v)) else .error .badOperand
    | none => .error .badOperand
  else
    match plainInstrs.find? (fun i => mnemonicOf i == mn) with
    | some i => if operand = [] then .ok [i] else .error .badOperand
    | none => .error .unknownMnemonic

/-- R98: one line; a line with nothing but white space and a comment stands for no command. -/
def asmLine (line : String) : Except AsmError (List Instr) :=
  let cs := trimBlanks (dropComment line.toList)
  if cs = [] then .ok []
  else
    asmCommand (String.ofList (cs.takeWhile (fun c => !isBlank c)))
      (trimBlanks (cs.dropWhile (fun c => !isBlank c)))

end Sys2Proof.Machine
end

