-- ==== Sys2Proof/Safety.lean ====
section
/-! DEFINITION. What counts as a safe state and a safe run, in the terms the claims use: the invariants the spec
states of the state (R20, R25, R27, R29, R35, R38), the premise `FLT = 0` (R38, R321), and the table of what
each command reads, writes and can report (R290). -/

namespace Sys2Proof.Machine

/-- R27: a chunk's type is four letters and its payload fits. -/
def Chunk.wf (caps : Capacities) (c : Chunk) : Bool := c.type.isAlpha && payloadFits caps c.data

/-- R35, R36, R38: `S` and `FLT` agree: no fault and the code of `OK` or of a failure, or exactly one fault and
its code. -/
def statusWf (st : BitVec 8) (flt : BitVec 3) : Bool :=
  (flt == 0 && st.toNat ≤ 0x09)
    || (flt == 0b001 && st == 0x80) || (flt == 0b010 && st == 0x81) || (flt == 0b100 && st == 0x82)

/-- The invariant of the machine: type codes are letters (R25, R27, R29), every store is within its capacity
(R20), the status and fault registers hold legal values that agree (R35, R38). -/
def State.wf (s : State) : Bool :=
  s.T.all TypeCode.isAlpha
    && s.K.all (Chunk.wf s.caps)
    && s.P.all (fun q => withinCap s.caps.chunks q.length && q.all (Chunk.wf s.caps))
    && withinCap s.caps.stream s.I.length
    && withinCap s.caps.stream s.O.length
    && statusWf s.S s.FLT

/-- R38, R321: "every claim about a run of the block takes `FLT = 0` at its end as a premise". -/
def State.running (s : State) : Prop := s.FLT = 0

/-- The elements of R20, as names. -/
inductive Elem where
  | R | C | T | K | P | I | O | S | F | FLT
deriving DecidableEq, Repr

/-- R290, column "reads". -/
def readsOf : Instr → List Elem
  | .nop | .inClr | .outClr | .crcInit | .ctNew => []
  | .inPush _ => [.I]
  | .movIo => [.O]
  | .beEnc => [.R, .O]
  | .beDec _ => [.I]
  | .crcUpd _ => [.C]
  | .crcUpdi => [.C, .I]
  | .crcFin => [.C]
  | .tcNew => [.R]
  | .tcNewt => [.I]
  | .tcValid | .tcCrit | .tcPub | .tcRsv | .tcSafe | .tcBytes => [.T]
  | .tcText => [.T, .O]
  | .tcEq => [.T, .K]
  | .chNew => [.T, .I]
  | .chLen | .chCrc | .chType => [.K]
  | .chData | .chText | .chSer => [.K, .O]
  | .chParse => [.I]
  | .ctParse => [.I]
  | .ctSer => [.P, .O]
  | .ctAppend => [.P, .K]
  | .ctFind => [.P, .I]
  | .ctRemove => [.P, .I]

/-- R290, column "writes (normal end)"; every executed command writes `S` too. -/
def writesOf : Instr → List Elem
  | .nop => []
  | .inClr | .inPush _ | .movIo => [.I]
  | .outClr | .beEnc | .tcText | .chData | .chText | .chSer | .ctSer => [.O]
  | .beDec _ | .crcFin | .tcValid | .tcCrit | .tcPub | .tcRsv | .tcSafe | .tcBytes | .tcEq | .chLen | .chCrc => [.R]
  | .crcInit | .crcUpd _ | .crcUpdi => [.C]
  | .tcNew | .tcNewt | .chType => [.T]
  | .chNew | .chParse => [.K]
  | .ctNew | .ctParse | .ctAppend => [.P]
  | .ctFind => [.F, .K]
  | .ctRemove => [.P, .K]

/-- R290, column "kinds". -/
def kindsOf : Instr → List FailKind
  | .beDec _ => [.truncated]
  | .tcNew => [.nonAlphabeticByte]
  | .tcNewt => [.wrongLength, .nonAlphabeticByte]
  | .chText => [.notUtf8Text]
  | .chParse => [.truncated, .lengthMismatch, .invalidType, .checksumMismatch]
  | .ctParse => [.badSignature, .truncated, .invalidType, .checksumMismatch]
  | .ctRemove => [.notFound]
  | .nop | .inClr | .inPush _ | .outClr | .movIo | .beEnc | .crcInit | .crcUpd _ | .crcUpdi | .crcFin
  | .tcValid | .tcCrit | .tcPub | .tcRsv | .tcSafe | .tcBytes | .tcText | .tcEq | .chNew | .chLen | .chCrc
  | .chType | .chData | .chSer | .ctNew | .ctSer | .ctAppend | .ctFind => []

/-- R290, column "faults" (beside `IllegalCommand`, which is a matter of the word). -/
def faultsOf : Instr → List HwFault
  | .inPush _ | .beEnc | .chParse | .ctParse => [.capacity]
  | .tcValid | .tcCrit | .tcPub | .tcRsv | .tcSafe | .tcBytes | .tcEq | .chLen | .chCrc | .chType | .ctFind | .ctRemove => [.emptyOperand]
  | .tcText | .chNew | .chData | .chText | .chSer | .ctSer | .ctAppend => [.emptyOperand, .capacity]
  | .nop | .inClr | .outClr | .movIo | .beDec _ | .crcInit | .crcUpd _ | .crcUpdi | .crcFin | .tcNew
  | .tcNewt | .ctNew => []

/-- Two states hold the same in an element. -/
def sameElem (s t : State) : Elem → Prop
  | .R => s.R = t.R
  | .C => s.C = t.C
  | .T => s.T = t.T
  | .K => s.K = t.K
  | .P => s.P = t.P
  | .I => s.I = t.I
  | .O => s.O = t.O
  | .S => s.S = t.S
  | .F => s.F = t.F
  | .FLT => s.FLT = t.FLT

/-- The word, presented next, runs this command on the state from which it has been taken. -/
def wordRuns (w : CommandWord) (i : Instr) : Prop :=
  ∀ (s : State) (rest : List HostEvent), s.pending = .command w :: rest → step s = exec i { s with pending := rest }

/-- R311: the word, presented next to a block without fault, is the `IllegalCommand` fault. -/
def wordIsIllegal (w : CommandWord) : Prop :=
  ∀ (s : State) (rest : List HostEvent), s.pending = .command w :: rest → s.FLT = 0 →
    step s = .next { s with pending := rest, S := 0x80, FLT := 0b001 }

/-- R93, R95: `op` is the opcode of a command that takes no immediate: the word `op * 256` runs that command, and
with any other immediate the word is the `IllegalCommand` fault. -/
def plainEncoding (op : Byte) (i : Instr) : Prop :=
  wordRuns (op ++ (0 : Byte)) i ∧ ∀ imm : Byte, imm ≠ 0 → wordIsIllegal (op ++ imm)

/-- R93: `op` is the opcode of a command that takes an immediate: every word `op * 256 + imm8` runs it. -/
def immEncoding (op : Byte) (i : Byte → Instr) : Prop :=
  ∀ imm : Byte, wordRuns (op ++ imm) (i imm)

/-- A command that feeds the CRC unit: `some b` is `CRC.UPD b` (R176), `none` is `CRC.UPDI` (R177). -/
def crcFeed : Option Byte → Instr
  | some b => .crcUpd b
  | none => .crcUpdi

/-- The bytes that command absorbs where `I` is `buf`. -/
def crcFed (buf : List Byte) : Option Byte → List Byte
  | some b => [b]
  | none => buf

/-- A run of commands, each executed in turn, stopping at the first that does not answer a next state. -/
def runInstrs : List Instr → State → Host.Outcome State Fault Refusal
  | [], s => .next s
  | i :: is, s =>
      match exec i s with
      | .next t => runInstrs is t
      | .fault r => .fault r
      | .refused r => .refused r

end Sys2Proof.Machine
end

