-- ==== Sys2Proof/Certificates/Slice0/Obligations.lean ====
section
/-! DEFINITION. The statements for the provers. `s.FLT = 0` is the premise R38 asks of every claim; a next state is
written as the state before it with every element that changes, so each equation is the command's frame too: an
element it does not name is as before, in every byte. -/

open Sys2Proof Sys2Proof.Machine Host

/-! ### Reset and the envelope -/

/-- R46: what reset leaves: the state the machine starts from, and the state of a block of any capacities after
reset. (Which capacities `State.reset` has is the model's choice, log entry 4, and is no part of this.) -/
def Obligations.ResetLeavesTheSpecsValues : Prop :=
  Sys2Proof.core.reset = State.reset ∧
  ∀ s : State, (s = State.reset ∨ ∃ (caps : Capacities) (p : List HostEvent), s = State.resetWith caps p) →
    s.R = 0x00000000 ∧ s.C = 0xFFFFFFFF ∧ s.T = none ∧ s.K = none ∧ s.P = none ∧
    s.I = [] ∧ s.O = [] ∧ s.S = 0x00 ∧ s.F = false ∧ s.FLT = 0b000

/-- R341: a reset the host asserts sets every element, leaves the parameters, and nothing else clears `FLT`. -/
def Obligations.ResetEventSetsEveryElement : Prop :=
  (∀ (s : State) (rest : List HostEvent), s.pending = .reset :: rest →
    ∃ t, step s = .next t ∧ t.R = 0x00000000 ∧ t.C = 0xFFFFFFFF ∧ t.T = none ∧ t.K = none ∧ t.P = none ∧
      t.I = [] ∧ t.O = [] ∧ t.S = 0x00 ∧ t.F = false ∧ t.FLT = 0b000 ∧ t.caps = s.caps) ∧
  (∀ s t : State, step s = .next t → s.FLT ≠ 0 → t.FLT = 0 → ∃ rest, s.pending = .reset :: rest) ∧
  (∀ s t : State, step s = .next t → t.caps = s.caps)

/-- The valid bits and the fault bits are sticky: a register that holds a value loses it, and a fault bit that is
set is cleared, by reset alone (10_state.md sections 3 to 5 and 7). -/
def Obligations.OnlyResetClearsValidBitsAndFaults : Prop :=
  ∀ (s t : State) (w : CommandWord) (rest : List HostEvent), s.pending = .command w :: rest → step s = .next t →
    (s.T.isSome → t.T.isSome) ∧ (s.K.isSome → t.K.isSome) ∧ (s.P.isSome → t.P.isSome) ∧
    (∀ b : Fin 3, s.FLT[b] = true → t.FLT[b] = true)

/-- How a step comes to run a command in this model (log entries 1 to 3): it takes the oldest event; a word that
decodes runs as `exec`, a word that does not is the illegal command, nothing presented is nothing done. -/
def Obligations.StepRunsTheDecodedCommand : Prop :=
  (∀ (s : State) (w : CommandWord) (rest : List HostEvent) (i : Instr),
    s.pending = .command w :: rest → decodeWord w = .ok i → step s = exec i { s with pending := rest }) ∧
  (∀ (s : State) (w : CommandWord) (rest : List HostEvent) (e : DecodeError),
    s.pending = .command w :: rest → decodeWord w = .error e → step s = execReserved { s with pending := rest }) ∧
  (∀ s : State, s.pending = [] → step s = .next s) ∧
  (∀ (s : State) (i : Instr), step (s.withFetchWord 16 (encode i).toNat) = exec i s)

/-- R311: the two kinds of reserved word, and what the fault they are writes. -/
def Obligations.ReservedWordIsIllegalCommand : Prop :=
  (∀ w : CommandWord, opReserved (wordOp w) = true → wordIsIllegal w) ∧
  (∀ w : CommandWord, opTakesImm (wordOp w) = false → wordImm w ≠ 0 → wordIsIllegal w)

/-- A faulted block executes no command, whatever the command and whatever the state (10_state.md R36). That the
ignored word is gone from the host's queue is the model's reading (log entry 3, DEDUCED), so this statement is not
R36 alone. -/
def Obligations.FaultedBlockExecutesNothing : Prop :=
  (∀ (i : Instr) (s : State), s.FLT ≠ 0 → exec i s = .next s) ∧
  (∀ (s : State) (w : CommandWord) (rest : List HostEvent), s.pending = .command w :: rest → s.FLT ≠ 0 →
    step s = .next { s with pending := rest })

/-! ### Decode and encode -/

/-- Every command has exactly one word and every word at most one command (30_encoding.md part A). -/
def Obligations.DecodeAndEncodeAgree : Prop :=
  ∀ (w : CommandWord) (i : Instr), decodeWord w = .ok i ↔ w = encode i

/-- The words that are commands are those whose opcode is assigned and whose immediate is zero where none is
taken; the reserved ones are refused by the name of what is reserved (30_encoding.md R94 to R96, section A). -/
def Obligations.WordIsACommandIffWellFormed : Prop :=
  ∀ w : CommandWord,
    ((∃ i, decodeWord w = .ok i) ↔ wordWellFormed w = true) ∧
    (decodeWord w = .error .reservedOpcode ↔ opReserved (wordOp w) = true) ∧
    (decodeWord w = .error .reservedImmediate ↔
      opReserved (wordOp w) = false ∧ opTakesImm (wordOp w) = false ∧ wordImm w ≠ 0)

/-- Listings, two bytes a command, opcode byte first: the bytes determine the commands and the commands the bytes. -/
def Obligations.ListingsDecodeAndEncodeAgree : Prop :=
  ∀ (bs : List Byte) (is : List Instr), decodeListing bs = .ok is ↔ bs = encodeListing is

/-- A few words written out from R93. -/
def Obligations.WrittenWordsDecode : Prop :=
  decodeWord 0b0000000000000000 = .ok .nop ∧ decodeWord 0b0000001001110010 = .ok (.inPush 0x72) ∧
  decodeWord 0b0001000100000100 = .ok (.beDec 4) ∧ decodeWord 0b0010000101100001 = .ok (.crcUpd 0x61) ∧
  decodeWord 0b0011100100000000 = .ok .tcEq ∧ decodeWord 0b0100011100000000 = .ok .chParse ∧
  decodeWord 0b0101010100000000 = .ok .ctRemove

/-- R99: the two pseudo-instructions, their expansions, effects and clobbers. -/
def Obligations.PseudoInstructionsHaveTheirEffects : Prop :=
  (∀ bs : List Byte, expandInBytes bs = .inClr :: bs.map .inPush) ∧
  (∀ v : U32, expandLdR v = [.inClr, .inPush (v.extractLsb' 24 8), .inPush (v.extractLsb' 16 8),
      .inPush (v.extractLsb' 8 8), .inPush (v.extractLsb' 0 8), .beDec 0]) ∧
  (∀ (bs : List Byte) (s : State), s.FLT = 0 → withinCap s.caps.stream bs.length = true →
    runInstrs (expandInBytes bs) s = .next { s with I := bs, S := 0x00 }) ∧
  (∀ (v : U32) (s : State), s.FLT = 0 → withinCap s.caps.stream 4 = true →
    runInstrs (expandLdR v) s = .next { s with R := v, I := be32enc v, S := 0x00 })

/-- The mnemonic of a command without operand assembles to it, and the three immediate forms of R98 read as
bytes (what R98 leaves open of a line is log entry 10). -/
def Obligations.AssemblerReadsTheMnemonics : Prop :=
  (∀ i ∈ plainInstrs, asmLine (mnemonicOf i) = .ok [i]) ∧
  asmLine "IN.PUSH 'r'" = .ok [.inPush 0x72] ∧ asmLine "  IN.PUSH 0x72 ; r" = .ok [.inPush 0x72] ∧
  asmLine "BE.DEC 4" = .ok [.beDec 4] ∧ asmLine "CRC.UPD 255" = .ok [.crcUpd 0xFF] ∧
  asmLine "NOP 1" = .error .badOperand ∧ asmLine "in.clr" = .error .unknownMnemonic

/-! ### Buffer commands -/

/-- R130, R131, R133, R134. -/
def Obligations.PlainBufferCommands : Prop :=
  (plainEncoding 0x00 .nop ∧ ∀ s : State, s.FLT = 0 → exec .nop s = .next { s with S := 0x00 }) ∧
  (plainEncoding 0x01 .inClr ∧ ∀ s : State, s.FLT = 0 → exec .inClr s = .next { s with I := [], S := 0x00 }) ∧
  (plainEncoding 0x03 .outClr ∧ ∀ s : State, s.FLT = 0 → exec .outClr s = .next { s with O := [], S := 0x00 }) ∧
  (plainEncoding 0x04 .movIo ∧ ∀ s : State, s.FLT = 0 → exec .movIo s = .next { s with I := s.O, S := 0x00 })

/-- R132. -/
def Obligations.InPushAppendsItsByte : Prop :=
  immEncoding 0x02 .inPush ∧
  (∀ (imm : Byte) (s : State), s.FLT = 0 → s.caps.stream ≠ some s.I.length →
    exec (.inPush imm) s = .next { s with I := s.I ++ [imm], S := 0x00 }) ∧
  (∀ (imm : Byte) (s : State), s.FLT = 0 → s.caps.stream = some s.I.length →
    exec (.inPush imm) s = .next { s with S := 0x82, FLT := 0b100 })

/-! ### Big-endian unit -/

/-- R150: both forms of `be32enc`. -/
def Obligations.Be32EncIsMostSignificantByteFirst : Prop :=
  ∀ v : U32, be32enc v = [v.extractLsb' 24 8, v.extractLsb' 16 8, v.extractLsb' 8 8, v.extractLsb' 0 8] ∧
    ∀ i : Nat, i ≤ 3 → ((be32enc v)[i]?).map BitVec.toNat = some (v.toNat / 2 ^ (8 * (3 - i)) % 256)

/-- `be32dec` is the sum of its bytes' weights, and the two functions are mutually inverse (41_be32.md section 1). -/
def Obligations.Be32DecIsTheWeightedSumAndInverse : Prop :=
  (∀ b0 b1 b2 b3 : Byte, ∃ v, be32dec [b0, b1, b2, b3] = some v ∧
    v.toNat = b0.toNat * 2 ^ 24 + b1.toNat * 2 ^ 16 + b2.toNat * 2 ^ 8 + b3.toNat) ∧
  (∀ (bs : List Byte) (v : U32), be32dec bs = some v ↔ bs = be32enc v)

/-- R153. -/
def Obligations.BeEncAppendsR : Prop :=
  plainEncoding 0x10 .beEnc ∧
  (∀ s : State, s.FLT = 0 → withinCap s.caps.stream (s.O.length + 4) = true →
    exec .beEnc s = .next { s with O := s.O ++ be32enc s.R, S := 0x00 }) ∧
  (∀ s : State, s.FLT = 0 → withinCap s.caps.stream (s.O.length + 4) = false →
    exec .beEnc s = .next { s with S := 0x82, FLT := 0b100 })

/-- R154. -/
def Obligations.BeDecReadsTheFieldAtItsOffset : Prop :=
  immEncoding 0x11 .beDec ∧
  (∀ (imm : Byte) (s : State), s.FLT = 0 → imm.toNat + 4 ≤ s.I.length →
    ∃ v, be32dec ((s.I.drop imm.toNat).take 4) = some v ∧
      exec (.beDec imm) s = .next { s with R := v, S := 0x00 }) ∧
  (∀ (imm : Byte) (s : State), s.FLT = 0 → s.I.length < imm.toNat + 4 →
    exec (.beDec imm) s = .next { s with S := 0x03 })

/-! ### CRC unit -/

/-- R168: `crc32` over the register of R166, its value on no bytes, and the check value. -/
def Obligations.Crc32IsTheXoredRegister : Prop :=
  (∀ s : List Byte, crc32 s = crcUpdate 0xFFFFFFFF s ^^^ 0xFFFFFFFF) ∧ crc32 [] = 0x00000000 ∧
  crc32 [0x31, 0x32, 0x33, 0x34, 0x35, 0x36, 0x37, 0x38, 0x39] = 0xCBF43926

/-- R175, R178. -/
def Obligations.CrcInitAndCrcFin : Prop :=
  (plainEncoding 0x20 .crcInit ∧
    ∀ s : State, s.FLT = 0 → exec .crcInit s = .next { s with C := 0xFFFFFFFF, S := 0x00 }) ∧
  (plainEncoding 0x23 .crcFin ∧
    ∀ s : State, s.FLT = 0 → exec .crcFin s = .next { s with R := s.C ^^^ 0xFFFFFFFF, S := 0x00 })

/-- R176, R177: one byte by `crc_step`, the whole of `I` by `crc_update`, which is one `CRC.UPD` after another. -/
def Obligations.CrcUpdAndCrcUpdi : Prop :=
  (immEncoding 0x21 .crcUpd ∧
    ∀ (imm : Byte) (s : State), s.FLT = 0 →
      exec (.crcUpd imm) s = .next { s with C := crcStep s.C imm, S := 0x00 }) ∧
  (plainEncoding 0x22 .crcUpdi ∧
    ∀ s : State, s.FLT = 0 →
      exec .crcUpdi s = .next { s with C := crcUpdate s.C s.I, S := 0x00 } ∧
      runInstrs (.nop :: s.I.map .crcUpd) s = exec .crcUpdi s)

/-- The unit can be fed in pieces of any sizes (42_crc32.md sections 1 and 2, the spec's own inferences R167 and
R179): a session of `CRC.INIT`, any `CRC.UPD`s and `CRC.UPDI`s in any order, and `CRC.FIN` leaves the checksum of
the bytes fed; so does one that brings each piece into `I` by `IN.BYTES` and absorbs it by `CRC.UPDI`. -/
def Obligations.CrcSessionGivesTheChecksum : Prop :=
  (∀ (c : U32) (s t : List Byte), crcUpdate c (s ++ t) = crcUpdate (crcUpdate c s) t) ∧
  (∀ (fs : List (Option Byte)) (s : State), s.FLT = 0 →
    runInstrs (.crcInit :: fs.map crcFeed ++ [.crcFin]) s =
      .next { s with C := crcUpdate 0xFFFFFFFF (fs.flatMap (crcFed s.I)), R := crc32 (fs.flatMap (crcFed s.I)), S := 0x00 }) ∧
  (∀ (ps : List (List Byte)) (s : State), s.FLT = 0 → (∀ p ∈ ps, withinCap s.caps.stream p.length = true) →
    runInstrs (.crcInit :: ps.flatMap (fun p => expandInBytes p ++ [.crcUpdi]) ++ [.crcFin]) s =
      .next { s with I := ps.getLastD s.I, C := crcUpdate 0xFFFFFFFF ps.flatten, R := crc32 ps.flatten, S := 0x00 })

/-- The most-significant-bit-first formulation is the same function (42_crc32.md R169). -/
def Obligations.MsbFirstFormulationAgrees : Prop :=
  ∀ s : List Byte, crc32Msb s = crc32 s

/-- The table the spec prints is `crc_step` from zero, and the table-driven step is `crc_step` (42_crc32.md R170). -/
def Obligations.TableFormulationAgrees : Prop :=
  (∀ i : Byte, crcTab[i.toNat]? = some (crcStep 0x00000000 i)) ∧ crcTab.length = 256 ∧
  ∀ (c : U32) (b : Byte), crcTabStep c b = crcStep c b

/-- Changing exactly one bit of the covered bytes always changes `crc32` (42_crc32.md R171). -/
def Obligations.OneBitErrorChangesTheCrc : Prop :=
  ∀ (p q : List Byte) (b : Byte) (k : Nat), k < 8 →
    crc32 (p ++ (b ^^^ BitVec.twoPow 8 k) :: q) ≠ crc32 (p ++ b :: q)

/-! ### Type codes -/

/-- R190: the letters are two ranges of byte values. R193 to R197: validity is letters and the reserved bit clear, `rust` is a type code and is not valid; on a type
code each predicate is the case of one byte, and validity the third byte's. -/
def Obligations.TypePredicatesAreTheCaseOfOneByte : Prop :=
  (∀ b : Byte, isAlpha b = true ↔
    (0x41 ≤ b.toNat ∧ b.toNat ≤ 0x5A) ∨ (0x61 ≤ b.toNat ∧ b.toNat ≤ 0x7A)) ∧
  (∀ t : TypeCode, t.isValid = true ↔
    (isAlpha t.b0 = true ∧ isAlpha t.b1 = true ∧ isAlpha t.b2 = true ∧ isAlpha t.b3 = true) ∧
      t.isReservedBitValid = true) ∧
  (TypeCode.isAlpha ⟨0x72, 0x75, 0x73, 0x74⟩ = true ∧ TypeCode.isValid ⟨0x72, 0x75, 0x73, 0x74⟩ = false) ∧
  ∀ t : TypeCode, t.isAlpha = true →
    (t.isCritical = true ↔ t.b0.getLsbD 5 = false) ∧ (t.isCritical = true ↔ t.b0.toNat ≤ 0x5A) ∧
    (t.isPublic = true ↔ t.b1.getLsbD 5 = false) ∧ (t.isPublic = true ↔ t.b1.toNat ≤ 0x5A) ∧
    (t.isReservedBitValid = true ↔ t.b2.getLsbD 5 = false) ∧ (t.isReservedBitValid = true ↔ t.b2.toNat ≤ 0x5A) ∧
    (t.isSafeToCopy = true ↔ t.b3.getLsbD 5 = true) ∧ (t.isSafeToCopy = true ↔ 0x61 ≤ t.b3.toNat) ∧
    (t.isValid = true ↔ t.isReservedBitValid = true)

/-- R200: the bytes of `R`, the first in `R[31:24]`. -/
def Obligations.TcNewConstructsFromR : Prop :=
  plainEncoding 0x30 .tcNew ∧
  (∀ (b0 b1 b2 b3 : Byte) (s : State), s.FLT = 0 → be32enc s.R = [b0, b1, b2, b3] →
    (isAlpha b0 && isAlpha b1 && isAlpha b2 && isAlpha b3) = true →
    exec .tcNew s = .next { s with T := some ⟨b0, b1, b2, b3⟩, S := 0x00 }) ∧
  (∀ (b0 b1 b2 b3 : Byte) (s : State), s.FLT = 0 → be32enc s.R = [b0, b1, b2, b3] →
    (isAlpha b0 && isAlpha b1 && isAlpha b2 && isAlpha b3) = false →
    exec .tcNew s = .next { s with S := 0x01 })

/-- R201: the length test comes before the letters. -/
def Obligations.TcNewtConstructsFromText : Prop :=
  plainEncoding 0x31 .tcNewt ∧
  (∀ s : State, s.FLT = 0 → s.I.length ≠ 4 → exec .tcNewt s = .next { s with S := 0x02 }) ∧
  (∀ (b0 b1 b2 b3 : Byte) (s : State), s.FLT = 0 → s.I = [b0, b1, b2, b3] →
    (isAlpha b0 && isAlpha b1 && isAlpha b2 && isAlpha b3) = false →
    exec .tcNewt s = .next { s with S := 0x01 }) ∧
  (∀ (b0 b1 b2 b3 : Byte) (s : State), s.FLT = 0 → s.I = [b0, b1, b2, b3] →
    (isAlpha b0 && isAlpha b1 && isAlpha b2 && isAlpha b3) = true →
    exec .tcNewt s = .next { s with T := some ⟨b0, b1, b2, b3⟩, S := 0x00 })

/-- R202 to R206: the five predicates of `T`, as 1 or 0 in `R`. -/
def Obligations.TcPredicatesAnswerInR : Prop :=
  (plainEncoding 0x32 .tcValid ∧ plainEncoding 0x33 .tcCrit ∧ plainEncoding 0x34 .tcPub ∧
    plainEncoding 0x35 .tcRsv ∧ plainEncoding 0x36 .tcSafe) ∧
  (∀ (t : TypeCode) (s : State), s.FLT = 0 → s.T = some t →
    exec .tcValid s = .next { s with R := if t.isAlpha && !t.b2.getLsbD 5 then 1 else 0, S := 0x00 } ∧
    exec .tcCrit s = .next { s with R := if t.b0.getLsbD 5 then 0 else 1, S := 0x00 } ∧
    exec .tcPub s = .next { s with R := if t.b1.getLsbD 5 then 0 else 1, S := 0x00 } ∧
    exec .tcRsv s = .next { s with R := if t.b2.getLsbD 5 then 0 else 1, S := 0x00 } ∧
    exec .tcSafe s = .next { s with R := if t.b3.getLsbD 5 then 1 else 0, S := 0x00 }) ∧
  (∀ s : State, s.FLT = 0 → s.T = none →
    ∀ i ∈ [Instr.tcValid, .tcCrit, .tcPub, .tcRsv, .tcSafe],
      exec i s = .next { s with S := 0x81, FLT := 0b010 })

/-- R207, R208: the bytes of `T` to `R` and to `O`. -/
def Obligations.TcBytesAndTcText : Prop :=
  (plainEncoding 0x37 .tcBytes ∧
    (∀ (t : TypeCode) (s : State), s.FLT = 0 → s.T = some t → ∃ v, be32dec [t.b0, t.b1, t.b2, t.b3] = some v ∧
      exec .tcBytes s = .next { s with R := v, S := 0x00 }) ∧
    (∀ s : State, s.FLT = 0 → s.T = none → exec .tcBytes s = .next { s with S := 0x81, FLT := 0b010 })) ∧
  (plainEncoding 0x38 .tcText ∧
    (∀ (t : TypeCode) (s : State), s.FLT = 0 → s.T = some t → withinCap s.caps.stream (s.O.length + 4) = true →
      exec .tcText s = .next { s with O := s.O ++ [t.b0, t.b1, t.b2, t.b3], S := 0x00 }) ∧
    (∀ (t : TypeCode) (s : State), s.FLT = 0 → s.T = some t → withinCap s.caps.stream (s.O.length + 4) = false →
      exec .tcText s = .next { s with S := 0x82, FLT := 0b100 }) ∧
    (∀ s : State, s.FLT = 0 → s.T = none → exec .tcText s = .next { s with S := 0x81, FLT := 0b010 }))

/-- R209: byte-wise equality of `T` and `K.type`. -/
def Obligations.TcEqComparesWithKType : Prop :=
  plainEncoding 0x39 .tcEq ∧
  (∀ (t : TypeCode) (k : Chunk) (s : State), s.FLT = 0 → s.T = some t → s.K = some k →
    exec .tcEq s = .next { s with
      R := if t.b0 = k.type.b0 ∧ t.b1 = k.type.b1 ∧ t.b2 = k.type.b2 ∧ t.b3 = k.type.b3 then 1 else 0, S := 0x00 }) ∧
  (∀ s : State, s.FLT = 0 → s.T = none ∨ s.K = none → exec .tcEq s = .next { s with S := 0x81, FLT := 0b010 })

/-! ### Chunks -/

/-- R230. -/
def Obligations.ChNewMakesAChunk : Prop :=
  plainEncoding 0x40 .chNew ∧
  (∀ (t : TypeCode) (s : State), s.FLT = 0 → s.T = some t → s.I.length ≤ s.caps.payload.val →
    exec .chNew s = .next { s with K := some ⟨t, s.I⟩, S := 0x00 }) ∧
  (∀ (t : TypeCode) (s : State), s.FLT = 0 → s.T = some t → s.caps.payload.val < s.I.length →
    exec .chNew s = .next { s with S := 0x82, FLT := 0b100 }) ∧
  (∀ s : State, s.FLT = 0 → s.T = none → exec .chNew s = .next { s with S := 0x81, FLT := 0b010 })

/-- R231, R232, R233: what `K` yields to `R` and to `T`. -/
def Obligations.ChLenChCrcAndChType : Prop :=
  (plainEncoding 0x41 .chLen ∧ plainEncoding 0x42 .chCrc ∧ plainEncoding 0x43 .chType) ∧
  (∀ (k : Chunk) (s : State), s.FLT = 0 → s.K = some k → k.data.length ≤ lenMax →
    ∃ v : U32, v.toNat = k.data.length ∧ exec .chLen s = .next { s with R := v, S := 0x00 }) ∧
  (∀ (k : Chunk) (s : State), s.FLT = 0 → s.K = some k →
    exec .chCrc s = .next { s with
      R := crc32 ([k.type.b0, k.type.b1, k.type.b2, k.type.b3] ++ k.data), S := 0x00 }) ∧
  (∀ (k : Chunk) (s : State), s.FLT = 0 → s.K = some k →
    exec .chType s = .next { s with T := some k.type, S := 0x00 }) ∧
  (∀ s : State, s.FLT = 0 → s.K = none → ∀ i ∈ [Instr.chLen, .chCrc, .chType],
    exec i s = .next { s with S := 0x81, FLT := 0b010 })

/-- R234. -/
def Obligations.ChDataAppendsThePayload : Prop :=
  plainEncoding 0x44 .chData ∧
  (∀ (k : Chunk) (s : State), s.FLT = 0 → s.K = some k →
    withinCap s.caps.stream (s.O.length + k.data.length) = true →
    exec .chData s = .next { s with O := s.O ++ k.data, S := 0x00 }) ∧
  (∀ (k : Chunk) (s : State), s.FLT = 0 → s.K = some k →
    withinCap s.caps.stream (s.O.length + k.data.length) = false →
    exec .chData s = .next { s with S := 0x82, FLT := 0b100 }) ∧
  (∀ s : State, s.FLT = 0 → s.K = none → exec .chData s = .next { s with S := 0x81, FLT := 0b010 })

/-- R235: the UTF-8 test comes before the room. -/
def Obligations.ChTextAppendsUtf8Only : Prop :=
  plainEncoding 0x45 .chText ∧
  (∀ (k : Chunk) (s : State), s.FLT = 0 → s.K = some k → utf8Valid k.data = true →
    withinCap s.caps.stream (s.O.length + k.data.length) = true →
    exec .chText s = .next { s with O := s.O ++ k.data, S := 0x00 }) ∧
  (∀ (k : Chunk) (s : State), s.FLT = 0 → s.K = some k → utf8Valid k.data = false →
    exec .chText s = .next { s with S := 0x09 }) ∧
  (∀ (k : Chunk) (s : State), s.FLT = 0 → s.K = some k → utf8Valid k.data = true →
    withinCap s.caps.stream (s.O.length + k.data.length) = false →
    exec .chText s = .next { s with S := 0x82, FLT := 0b100 }) ∧
  (∀ s : State, s.FLT = 0 → s.K = none → exec .chText s = .next { s with S := 0x81, FLT := 0b010 })

/-- R236: length, type, payload, checksum. -/
def Obligations.ChSerAppendsTheRecord : Prop :=
  plainEncoding 0x46 .chSer ∧
  (∀ (k : Chunk) (s : State), s.FLT = 0 → s.K = some k → k.data.length ≤ lenMax →
    withinCap s.caps.stream (s.O.length + (12 + k.data.length)) = true →
    ∃ v : U32, v.toNat = k.data.length ∧
      exec .chSer s = .next { s with
        O := s.O ++ (be32enc v ++ [k.type.b0, k.type.b1, k.type.b2, k.type.b3] ++ k.data ++
          be32enc (crc32 ([k.type.b0, k.type.b1, k.type.b2, k.type.b3] ++ k.data))), S := 0x00 }) ∧
  (∀ (k : Chunk) (s : State), s.FLT = 0 → s.K = some k → k.data.length ≤ lenMax →
    withinCap s.caps.stream (s.O.length + (12 + k.data.length)) = false →
    exec .chSer s = .next { s with S := 0x82, FLT := 0b100 }) ∧
  (∀ s : State, s.FLT = 0 → s.K = none → exec .chSer s = .next { s with S := 0x81, FLT := 0b010 })

/-- R237, with the four checks of R227 in their order. -/
def Obligations.ChParseMakesFourChecksInOrder : Prop :=
  plainEncoding 0x47 .chParse ∧
  (∀ s : State, s.FLT = 0 → s.I.length < 12 → exec .chParse s = .next { s with S := 0x03 }) ∧
  (∀ (s : State) (len sum : U32) (t : TypeCode) (d : List Byte), s.FLT = 0 →
    s.I = be32enc len ++ t.bytes ++ d ++ be32enc sum →
    (d.length ≠ len.toNat → exec .chParse s = .next { s with S := 0x04 }) ∧
    (d.length = len.toNat → t.isAlpha = false → exec .chParse s = .next { s with S := 0x05 }) ∧
    (d.length = len.toNat → t.isAlpha = true → crc32 (t.bytes ++ d) ≠ sum →
      exec .chParse s = .next { s with S := 0x06 }) ∧
    (d.length = len.toNat → t.isAlpha = true → crc32 (t.bytes ++ d) = sum → s.caps.payload.val < d.length →
      exec .chParse s = .next { s with S := 0x82, FLT := 0b100 }) ∧
    (d.length = len.toNat → t.isAlpha = true → crc32 (t.bytes ++ d) = sum → d.length ≤ s.caps.payload.val →
      exec .chParse s = .next { s with K := some ⟨t, d⟩, S := 0x00 }))

/-- U1: in a state that holds a payload longer than `LEN_MAX` (no run reaches one; log entry 6), the three commands
that need its length as a u32 give no result. -/
def Obligations.OverlongPayloadIsRefused : Prop :=
  (∀ (k : Chunk) (s : State), s.FLT = 0 → s.K = some k → lenMax < k.data.length →
    exec .chLen s = .refused .payloadTooLong ∧ exec .chSer s = .refused .payloadTooLong) ∧
  (∀ (q : List Chunk) (k : Chunk) (s : State), s.FLT = 0 → s.P = some q → k ∈ q → lenMax < k.data.length →
    exec .ctSer s = .refused .payloadTooLong)

/-- Parse and serialise are inverse on chunks: exactly the records of chunks parse, each to its chunk
(44_chunk.md section 3, the spec's own inferences R240 and R241). -/
def Obligations.ChunkParseAndSerializeAgree : Prop :=
  ∀ (s : List Byte) (c : Chunk),
    chunkParse s = .ok c ↔ c.type.isAlpha = true ∧ chunkSerialize c = some s

/-- R242: every single-bit change of a record is rejected, and with which kind. -/
def Obligations.SingleBitFlipOfARecordIsRejected : Prop :=
  (∀ (c : Chunk) (s p q : List Byte) (b : Byte) (k : Nat), c.type.isAlpha = true → chunkSerialize c = some s →
    s = p ++ b :: q → k < 8 →
    (p.length < 4 → chunkParse (p ++ (b ^^^ BitVec.twoPow 8 k) :: q) = .error .lengthMismatch) ∧
    (4 ≤ p.length → p.length < 8 → isAlpha (b ^^^ BitVec.twoPow 8 k) = false →
      chunkParse (p ++ (b ^^^ BitVec.twoPow 8 k) :: q) = .error .invalidType) ∧
    (4 ≤ p.length → p.length < 8 → isAlpha (b ^^^ BitVec.twoPow 8 k) = true →
      chunkParse (p ++ (b ^^^ BitVec.twoPow 8 k) :: q) = .error .checksumMismatch) ∧
    (8 ≤ p.length → chunkParse (p ++ (b ^^^ BitVec.twoPow 8 k) :: q) = .error .checksumMismatch)) ∧
  (∀ b : Byte, isAlpha b = true → isAlpha (b ^^^ BitVec.twoPow 8 5) = true)

/-- R224: valid is a concatenation of characters, each of one row of the table. -/
def Obligations.Utf8ValidIsAConcatenationOfCharacters : Prop :=
  (∀ d : List Byte, utf8Valid d = true ↔
    ∃ cs : List (List Byte), d = cs.flatten ∧
      ∀ c ∈ cs, ∃ row ∈ utf8Rows, List.Forall₂ (fun r b => r.1.toNat ≤ b.toNat ∧ b.toNat ≤ r.2.toNat) row c) ∧
  utf8Rows =
    [[(0x00, 0x7F)], [(0xC2, 0xDF), (0x80, 0xBF)], [(0xE0, 0xE0), (0xA0, 0xBF), (0x80, 0xBF)],
     [(0xE1, 0xEC), (0x80, 0xBF), (0x80, 0xBF)], [(0xED, 0xED), (0x80, 0x9F), (0x80, 0xBF)],
     [(0xEE, 0xEF), (0x80, 0xBF), (0x80, 0xBF)], [(0xF0, 0xF0), (0x90, 0xBF), (0x80, 0xBF), (0x80, 0xBF)],
     [(0xF1, 0xF3), (0x80, 0xBF), (0x80, 0xBF), (0x80, 0xBF)],
     [(0xF4, 0xF4), (0x80, 0x8F), (0x80, 0xBF), (0x80, 0xBF)]]

/-- The table of R224 is the encoding of the Unicode scalar values: a payload is valid exactly when it is the UTF-8
encoding of some characters, by Lean's own encoder (93_implementation_defined.md G4). -/
def Obligations.Utf8ValidIsTheEncodingOfCharacters : Prop :=
  ∀ d : List Byte, utf8Valid d = true ↔
    ∃ cs : List Char, d = (cs.flatMap String.utf8EncodeChar).map UInt8.toBitVec

/-! ### Containers -/

/-- R270. -/
def Obligations.CtNewMakesAnEmptyContainer : Prop :=
  plainEncoding 0x50 .ctNew ∧
  ∀ s : State, s.FLT = 0 → exec .ctNew s = .next { s with P := some [], S := 0x00 }

/-- R271, with the signature test and the kinds of R262 raised as they are. -/
def Obligations.CtParseReplacesTheContainer : Prop :=
  plainEncoding 0x51 .ctParse ∧
  (∀ s : State, s.FLT = 0 →
    s.I.length < 8 ∨ s.I.take 8 ≠ [0x89, 0x50, 0x4E, 0x47, 0x0D, 0x0A, 0x1A, 0x0A] →
    exec .ctParse s = .next { s with S := 0x07 }) ∧
  (∀ (s : State) (k : FailKind), s.FLT = 0 → containerParse s.I = .error k →
    k ≠ .lengthMismatch ∧ exec .ctParse s = .next { s with S := failCode k }) ∧
  (∀ (s : State) (q : List Chunk), s.FLT = 0 → containerParse s.I = .ok q →
    withinCap s.caps.chunks q.length = true → (∀ c ∈ q, c.data.length ≤ s.caps.payload.val) →
    exec .ctParse s = .next { s with P := some q, S := 0x00 }) ∧
  (∀ (s : State) (q : List Chunk), s.FLT = 0 → containerParse s.I = .ok q →
    withinCap s.caps.chunks q.length = false ∨ (∃ c ∈ q, s.caps.payload.val < c.data.length) →
    exec .ctParse s = .next { s with S := 0x82, FLT := 0b100 })

/-- R262: the parse, record by record. After the signature nothing is the empty container; otherwise 1 to 3 bytes,
or a record cut short, is `Truncated`; the first bad record decides; a good one comes before what follows. -/
def Obligations.ContainerParseGoesRecordByRecord : Prop :=
  (∀ s : List Byte, s.length < 8 ∨ s.take 8 ≠ sig → containerParse s = .error .badSignature) ∧
  containerParse sig = .ok [] ∧
  (∀ s : List Byte, 0 < s.length → s.length < 4 → containerParse (sig ++ s) = .error .truncated) ∧
  (∀ (len : U32) (s : List Byte), (be32enc len ++ s).length < 12 + len.toNat →
    containerParse (sig ++ (be32enc len ++ s)) = .error .truncated) ∧
  (∀ (len : U32) (r s : List Byte) (k : FailKind), (be32enc len ++ r).length = 12 + len.toNat →
    chunkParse (be32enc len ++ r) = .error k → containerParse (sig ++ (be32enc len ++ r ++ s)) = .error k) ∧
  (∀ (len : U32) (r s : List Byte) (c : Chunk), (be32enc len ++ r).length = 12 + len.toNat →
    chunkParse (be32enc len ++ r) = .ok c →
    containerParse (sig ++ (be32enc len ++ r ++ s)) = (containerParse (sig ++ s)).map (fun q => c :: q))

/-- R272. -/
def Obligations.CtSerAppendsTheStream : Prop :=
  plainEncoding 0x52 .ctSer ∧
  (∀ (q : List Chunk) (s : State), s.FLT = 0 → s.P = some q → (∀ c ∈ q, c.data.length ≤ lenMax) →
    ∃ rs : List (List Byte), rs.map some = q.map chunkSerialize ∧
      (withinCap s.caps.stream (s.O.length + (sig ++ rs.flatten).length) = true →
        exec .ctSer s = .next { s with O := s.O ++ (sig ++ rs.flatten), S := 0x00 }) ∧
      (withinCap s.caps.stream (s.O.length + (sig ++ rs.flatten).length) = false →
        exec .ctSer s = .next { s with S := 0x82, FLT := 0b100 })) ∧
  (∀ s : State, s.FLT = 0 → s.P = none → exec .ctSer s = .next { s with S := 0x81, FLT := 0b010 })

/-- The sizes of a record and of a stream (30_encoding.md R110, the spec's own inference). -/
def Obligations.SerializedSizes : Prop :=
  (∀ (c : Chunk) (s : List Byte), chunkSerialize c = some s → s.length = 12 + c.data.length) ∧
  (∀ (q : List Chunk) (s : List Byte), containerSerialize q = some s →
    s.length = 8 + (q.map (fun c => 12 + c.data.length)).sum)

/-- R273. -/
def Obligations.CtAppendAddsAtTheEnd : Prop :=
  plainEncoding 0x53 .ctAppend ∧
  (∀ (q : List Chunk) (k : Chunk) (s : State), s.FLT = 0 → s.P = some q → s.K = some k →
    s.caps.chunks ≠ some q.length → exec .ctAppend s = .next { s with P := some (q ++ [k]), S := 0x00 }) ∧
  (∀ (q : List Chunk) (k : Chunk) (s : State), s.FLT = 0 → s.P = some q → s.K = some k →
    s.caps.chunks = some q.length → exec .ctAppend s = .next { s with S := 0x82, FLT := 0b100 }) ∧
  (∀ s : State, s.FLT = 0 → s.P = none ∨ s.K = none →
    exec .ctAppend s = .next { s with S := 0x81, FLT := 0b010 })

/-- R274: the first match is copied to `K`; absence is `OK` with `F` 0 and `K` as it was. -/
def Obligations.CtFindCopiesTheFirstMatch : Prop :=
  plainEncoding 0x54 .ctFind ∧
  (∀ (pre post : List Chunk) (c : Chunk) (s : State), s.FLT = 0 → s.P = some (pre ++ c :: post) →
    c.type.bytes = s.I → (∀ d ∈ pre, d.type.bytes ≠ s.I) →
    exec .ctFind s = .next { s with K := some c, F := true, S := 0x00 }) ∧
  (∀ (q : List Chunk) (s : State), s.FLT = 0 → s.P = some q → (∀ d ∈ q, d.type.bytes ≠ s.I) →
    exec .ctFind s = .next { s with F := false, S := 0x00 }) ∧
  (∀ s : State, s.FLT = 0 → s.P = none → exec .ctFind s = .next { s with S := 0x81, FLT := 0b010 })

/-- R275: the first match moves to `K`; `F` is not written. -/
def Obligations.CtRemoveMovesTheFirstMatch : Prop :=
  plainEncoding 0x55 .ctRemove ∧
  (∀ (pre post : List Chunk) (c : Chunk) (s : State), s.FLT = 0 → s.P = some (pre ++ c :: post) →
    c.type.bytes = s.I → (∀ d ∈ pre, d.type.bytes ≠ s.I) →
    exec .ctRemove s = .next { s with K := some c, P := some (pre ++ post), S := 0x00 }) ∧
  (∀ (q : List Chunk) (s : State), s.FLT = 0 → s.P = some q → (∀ d ∈ q, d.type.bytes ≠ s.I) →
    exec .ctRemove s = .next { s with S := 0x08 }) ∧
  (∀ s : State, s.FLT = 0 → s.P = none → exec .ctRemove s = .next { s with S := 0x81, FLT := 0b010 })

/-- R265: what remove answers, whole: the least index, one chunk, the others in their order. -/
def Obligations.RemoveTakesTheLeastIndexOnly : Prop :=
  ∀ (q : List Chunk) (code : List Byte),
    (∀ (c : Chunk) (rest : List Chunk), containerRemove q code = some (c, rest) ↔
      ∃ pre post, q = pre ++ c :: post ∧ c.type.bytes = code ∧ (∀ d ∈ pre, d.type.bytes ≠ code) ∧
        rest = pre ++ post) ∧
    (containerRemove q code = none ↔ ∀ d ∈ q, d.type.bytes ≠ code) ∧
    containerFind q code = (containerRemove q code).map (fun r => r.1) ∧
    (code.length ≠ 4 → containerRemove q code = none)

/-- R282: append, find, remove, find, on a container that holds no chunk of the type; and an appended chunk never
disturbs what an earlier one of its type answers. -/
def Obligations.AppendFindRemoveFind : Prop :=
  (∀ (q : List Chunk) (k : Chunk) (s : State), s.FLT = 0 → s.P = some q → s.K = some k → s.I = k.type.bytes →
    (∀ d ∈ q, d.type.bytes ≠ k.type.bytes) → s.caps.chunks ≠ some q.length →
    runInstrs [.ctAppend, .ctFind] s = .next { s with P := some (q ++ [k]), F := true, S := 0x00 } ∧
    runInstrs [.ctAppend, .ctRemove, .ctFind] s = .next { s with F := false, S := 0x00 }) ∧
  (∀ (q : List Chunk) (c k : Chunk) (code : List Byte), containerFind q code = some c →
    containerFind (containerAppend q k) code = some c)

/-- R283: with two chunks of one type appended, find answers the first, and after one remove the second. -/
def Obligations.DuplicateTypesAreTakenInOrder : Prop :=
  ∀ (q : List Chunk) (c1 c2 : Chunk) (s : State), s.FLT = 0 →
    s.P = some (containerAppend (containerAppend q c1) c2) →
    c1.type.bytes = s.I → c2.type.bytes = s.I → (∀ d ∈ q, d.type.bytes ≠ s.I) →
    runInstrs [.ctFind] s = .next { s with K := some c1, F := true, S := 0x00 } ∧
    runInstrs [.ctRemove] s = .next { s with K := some c1, P := some (containerAppend q c2), S := 0x00 } ∧
    runInstrs [.ctRemove, .ctFind] s =
      .next { s with K := some c2, P := some (containerAppend q c2), F := true, S := 0x00 }

/-- Parse and serialise are inverse on containers: exactly the streams of containers parse, each to its container
(45_container.md section 3, R280 and the spec's own inference R281). -/
def Obligations.ContainerParseAndSerializeAgree : Prop :=
  ∀ (s : List Byte) (q : List Chunk),
    containerParse s = .ok q ↔ (∀ c ∈ q, c.type.isAlpha = true) ∧ containerSerialize q = some s

/-- R280: the round trip, in functions and in commands. -/
def Obligations.RoundTripOfAParsedStream : Prop :=
  (∀ (s : List Byte) (q : List Chunk), containerParse s = .ok q → containerSerialize q = some s) ∧
  (∀ (b : List Byte) (s t : State), s.FLT = 0 → s.I = b → exec .ctParse s = .next t → t.S = 0x00 →
    withinCap s.caps.stream b.length = true →
    runInstrs [.outClr, .ctSer] t = .next { t with O := b, S := 0x00 })

/-! ### Laws of the whole command set -/

/-- The operand matrix (49_command_set_laws.md section 1, the spec's own inferences R290 and R291): a command that
runs ends in one of three ways. Normally: `S` is `OK` and nothing outside its "writes" column changes. With one of
its failure kinds: `S` alone changes. With one of its faults: `S` and one bit of `FLT` alone change. -/
def Obligations.EveryCommandEndsInOneOfThreeWays : Prop :=
  ∀ (i : Instr) (s t : State), s.FLT = 0 → exec i s = .next t →
    (t.S = 0x00 ∧ t.FLT = 0 ∧ t.caps = s.caps ∧ t.pending = s.pending ∧
      ∀ e : Elem, e ≠ .S → e ∉ writesOf i → sameElem s t e) ∨
    (∃ k ∈ kindsOf i, t = { s with S := failCode k }) ∨
    (∃ k ∈ faultsOf i, t = { s with S := faultCode k, FLT := faultBit k })

/-- A command's outcome and every value it writes depend on its "reads" column and the capacities only
(49_command_set_laws.md section 1, R291 (e), the spec's own inference). -/
def Obligations.CommandsDependOnWhatTheyReadOnly : Prop :=
  ∀ (i : Instr) (s s' : State), s.FLT = 0 → s'.FLT = 0 → s.caps = s'.caps →
    (∀ e ∈ readsOf i, sameElem s s' e) →
    (∀ t, exec i s = .next t → ∃ t', exec i s' = .next t' ∧ t.S = t'.S ∧ t.FLT = t'.FLT ∧
      ∀ e : Elem, sameElem t t' e ∨ (sameElem s t e ∧ sameElem s' t' e)) ∧
    (∀ r, exec i s = .refused r → exec i s' = .refused r)

/-- The invariant of the machine (10_state.md R20, R25, R27, R29, R35, R38) is kept by every step. -/
def Obligations.EveryStepKeepsTheInvariant : Prop :=
  ∀ s t : State, s.wf = true → step s = .next t → t.wf = true

/-- The invariant holds after reset, whatever the capacities and whatever the host presents then. -/
def Obligations.TheInvariantHoldsAfterReset : Prop :=
  State.reset.wf = true ∧ ∀ (caps : Capacities) (p : List HostEvent), (State.resetWith caps p).wf = true

/-- In every state that meets the invariant, a step answers a next state: the machine neither faults nor refuses,
and every command terminates (70_reset_and_hazards.md R349; 93_implementation_defined.md U1). -/
def Obligations.EveryStepFromTheInvariantAnswers : Prop :=
  ∀ s : State, s.wf = true → ∃ t, step s = .next t
end

