-- ==== Sys2Proof/Laws/State.lean ====
section
/-! SUPPORT. The small lemmas of the state's updates: what each field is after each named update, true by `rfl`. -/

namespace Sys2Proof.Machine

/-! ### `endNormally` (R300) writes `S` alone -/

@[simp] theorem State.endNormally_R (s : State) : (s.endNormally).R = s.R := rfl
@[simp] theorem State.endNormally_C (s : State) : (s.endNormally).C = s.C := rfl
@[simp] theorem State.endNormally_T (s : State) : (s.endNormally).T = s.T := rfl
@[simp] theorem State.endNormally_K (s : State) : (s.endNormally).K = s.K := rfl
@[simp] theorem State.endNormally_P (s : State) : (s.endNormally).P = s.P := rfl
@[simp] theorem State.endNormally_I (s : State) : (s.endNormally).I = s.I := rfl
@[simp] theorem State.endNormally_O (s : State) : (s.endNormally).O = s.O := rfl
@[simp] theorem State.endNormally_S (s : State) : (s.endNormally).S = okCode := rfl
@[simp] theorem State.endNormally_F (s : State) : (s.endNormally).F = s.F := rfl
@[simp] theorem State.endNormally_FLT (s : State) : (s.endNormally).FLT = s.FLT := rfl
@[simp] theorem State.endNormally_caps (s : State) : (s.endNormally).caps = s.caps := rfl
@[simp] theorem State.endNormally_pending (s : State) : (s.endNormally).pending = s.pending := rfl

/-! ### `raise` (R320) writes `S` alone -/

@[simp] theorem State.raise_R (s : State) (k : FailKind) : (s.raise k).R = s.R := rfl
@[simp] theorem State.raise_C (s : State) (k : FailKind) : (s.raise k).C = s.C := rfl
@[simp] theorem State.raise_T (s : State) (k : FailKind) : (s.raise k).T = s.T := rfl
@[simp] theorem State.raise_K (s : State) (k : FailKind) : (s.raise k).K = s.K := rfl
@[simp] theorem State.raise_P (s : State) (k : FailKind) : (s.raise k).P = s.P := rfl
@[simp] theorem State.raise_I (s : State) (k : FailKind) : (s.raise k).I = s.I := rfl
@[simp] theorem State.raise_O (s : State) (k : FailKind) : (s.raise k).O = s.O := rfl
@[simp] theorem State.raise_S (s : State) (k : FailKind) : (s.raise k).S = failCode k := rfl
@[simp] theorem State.raise_F (s : State) (k : FailKind) : (s.raise k).F = s.F := rfl
@[simp] theorem State.raise_FLT (s : State) (k : FailKind) : (s.raise k).FLT = s.FLT := rfl
@[simp] theorem State.raise_caps (s : State) (k : FailKind) : (s.raise k).caps = s.caps := rfl
@[simp] theorem State.raise_pending (s : State) (k : FailKind) : (s.raise k).pending = s.pending := rfl

/-! ### `takeFault` (R321) writes `S` and one bit of `FLT` -/

@[simp] theorem State.takeFault_R (s : State) (k : HwFault) : (s.takeFault k).R = s.R := rfl
@[simp] theorem State.takeFault_C (s : State) (k : HwFault) : (s.takeFault k).C = s.C := rfl
@[simp] theorem State.takeFault_T (s : State) (k : HwFault) : (s.takeFault k).T = s.T := rfl
@[simp] theorem State.takeFault_K (s : State) (k : HwFault) : (s.takeFault k).K = s.K := rfl
@[simp] theorem State.takeFault_P (s : State) (k : HwFault) : (s.takeFault k).P = s.P := rfl
@[simp] theorem State.takeFault_I (s : State) (k : HwFault) : (s.takeFault k).I = s.I := rfl
@[simp] theorem State.takeFault_O (s : State) (k : HwFault) : (s.takeFault k).O = s.O := rfl
@[simp] theorem State.takeFault_S (s : State) (k : HwFault) : (s.takeFault k).S = faultCode k := rfl
@[simp] theorem State.takeFault_F (s : State) (k : HwFault) : (s.takeFault k).F = s.F := rfl
@[simp] theorem State.takeFault_FLT (s : State) (k : HwFault) : (s.takeFault k).FLT = setFault k s.FLT := rfl
@[simp] theorem State.takeFault_caps (s : State) (k : HwFault) : (s.takeFault k).caps = s.caps := rfl
@[simp] theorem State.takeFault_pending (s : State) (k : HwFault) : (s.takeFault k).pending = s.pending := rfl

/-! ### `resetBlock` (R341) writes every element, and leaves the model's own fields -/

@[simp] theorem State.resetBlock_R (s : State) : (s.resetBlock).R = 0x00000000 := rfl
@[simp] theorem State.resetBlock_C (s : State) : (s.resetBlock).C = 0xFFFFFFFF := rfl
@[simp] theorem State.resetBlock_T (s : State) : (s.resetBlock).T = none := rfl
@[simp] theorem State.resetBlock_K (s : State) : (s.resetBlock).K = none := rfl
@[simp] theorem State.resetBlock_P (s : State) : (s.resetBlock).P = none := rfl
@[simp] theorem State.resetBlock_I (s : State) : (s.resetBlock).I = [] := rfl
@[simp] theorem State.resetBlock_O (s : State) : (s.resetBlock).O = [] := rfl
@[simp] theorem State.resetBlock_S (s : State) : (s.resetBlock).S = 0x00 := rfl
@[simp] theorem State.resetBlock_F (s : State) : (s.resetBlock).F = false := rfl
@[simp] theorem State.resetBlock_FLT (s : State) : (s.resetBlock).FLT = 0 := rfl
@[simp] theorem State.resetBlock_caps (s : State) : (s.resetBlock).caps = s.caps := rfl
@[simp] theorem State.resetBlock_pending (s : State) : (s.resetBlock).pending = s.pending := rfl

/-! ### `presentFirst` and `withFetchWord` write `pending` alone -/

@[simp] theorem State.presentFirst_R (s : State) (e : HostEvent) : (presentFirst e s).R = s.R := rfl
@[simp] theorem State.presentFirst_C (s : State) (e : HostEvent) : (presentFirst e s).C = s.C := rfl
@[simp] theorem State.presentFirst_T (s : State) (e : HostEvent) : (presentFirst e s).T = s.T := rfl
@[simp] theorem State.presentFirst_K (s : State) (e : HostEvent) : (presentFirst e s).K = s.K := rfl
@[simp] theorem State.presentFirst_P (s : State) (e : HostEvent) : (presentFirst e s).P = s.P := rfl
@[simp] theorem State.presentFirst_I (s : State) (e : HostEvent) : (presentFirst e s).I = s.I := rfl
@[simp] theorem State.presentFirst_O (s : State) (e : HostEvent) : (presentFirst e s).O = s.O := rfl
@[simp] theorem State.presentFirst_S (s : State) (e : HostEvent) : (presentFirst e s).S = s.S := rfl
@[simp] theorem State.presentFirst_F (s : State) (e : HostEvent) : (presentFirst e s).F = s.F := rfl
@[simp] theorem State.presentFirst_FLT (s : State) (e : HostEvent) : (presentFirst e s).FLT = s.FLT := rfl
@[simp] theorem State.presentFirst_caps (s : State) (e : HostEvent) : (presentFirst e s).caps = s.caps := rfl
@[simp] theorem State.presentFirst_pending (s : State) (e : HostEvent) : (presentFirst e s).pending = e :: s.pending := rfl

/-- From a state without fault, a fault leaves its own code and its own bit alone. -/
theorem State.takeFault_of_running {s : State} (k : HwFault) (h : s.FLT = 0) :
    s.takeFault k = { s with S := faultCode k, FLT := faultBit k } := by
  simp [State.takeFault, setFault, h]

end Sys2Proof.Machine
end

