-- ==== Sys2Proof/Laws/Ops.lean ====
section
/-! SUPPORT. One lemma for each shared operation that says once what it can do: the envelope, the capacity tests,
the reads of a byte space, the appends, the taking of an event, and the step. -/

namespace Sys2Proof.Machine

/-! ### The envelope (R300) -/

theorem envelope_of_faulted {body : State → Ending} {s : State} (h : s.FLT ≠ 0) : envelope body s = .next s :=
  if_pos h

theorem envelope_of_running {body : State → Ending} {s : State} (h : s.FLT = 0) :
    envelope body s = settle s (body s) := if_neg fun h' => h' h

@[simp] theorem settle_done (s s' : State) : settle s (.done s') = .next s'.endNormally := rfl
@[simp] theorem settle_raise (s : State) (k : FailKind) : settle s (.raise k) = .next (s.raise k) := rfl
@[simp] theorem settle_fault (s : State) (k : HwFault) : settle s (.fault k) = .next (s.takeFault k) := rfl
@[simp] theorem settle_refuse (s : State) (r : Refusal) : settle s (.refuse r) = .refused r := rfl

/-- What a command that answers a next state can have done (R300: "The three outcomes are exclusive"). -/
theorem settle_eq_next {s t : State} {e : Ending} (h : settle s e = .next t) :
    (∃ s', e = .done s' ∧ t = s'.endNormally) ∨ (∃ k, e = .raise k ∧ t = s.raise k) ∨
      (∃ k, e = .fault k ∧ t = s.takeFault k) := by
  cases e with
  | done s' => exact .inl ⟨s', rfl, by simpa using h.symm⟩
  | raise k => exact .inr (.inl ⟨k, rfl, by simpa using h.symm⟩)
  | fault k => exact .inr (.inr ⟨k, rfl, by simpa using h.symm⟩)
  | refuse r => simp at h

/-! ### Capacities (R8, R313) -/

theorem withinCap_iff {cap : Option Nat} {n : Nat} : withinCap cap n = true ↔ ∀ m, cap = some m → n ≤ m := by
  cases cap <;> simp [withinCap]

theorem atCap_iff {cap : Option Nat} {n : Nat} : atCap cap n = true ↔ cap = some n := by
  cases cap <;> simp [atCap, eq_comm]

theorem payloadFits_iff {caps : Capacities} {d : List Byte} : payloadFits caps d = true ↔ d.length ≤ caps.payload.val := by
  simp [payloadFits]

/-- A shorter sequence is within a capacity that a longer one is within. -/
theorem withinCap_mono {cap : Option Nat} {m n : Nat} (h : m ≤ n) (hn : withinCap cap n = true) :
    withinCap cap m = true :=
  withinCap_iff.2 fun k hk => le_trans h (withinCap_iff.1 hn k hk)

/-- One more element fits where the store is within its capacity and not at it (R132, R273). -/
theorem withinCap_succ {cap : Option Nat} {n : Nat} (h : withinCap cap n = true) (h' : atCap cap n = false) :
    withinCap cap (n + 1) = true := by
  refine withinCap_iff.2 fun m hm => ?_
  have h1 := withinCap_iff.1 h m hm
  have h2 : ¬ cap = some n := fun hc => by simp [atCap_iff.2 hc] at h'
  have h3 : m ≠ n := fun hmn => h2 (hmn ▸ hm)
  omega

/-! ### Reading a byte space (R12, R61, R68) -/

@[simp] theorem memRead_length (buf : List Byte) (a n : Nat) : (memRead buf a n).length = min n (buf.length - a) := by
  simp [memRead]

theorem memRead_all (buf : List Byte) : memRead buf 0 buf.length = buf := by simp [memRead]

@[simp] theorem be32enc_length (v : U32) : (be32enc v).length = 4 := rfl

@[simp] theorem TypeCode.bytes_length (t : TypeCode) : t.bytes.length = 4 := rfl

@[simp] theorem TypeCode.ofBytes_bytes (t : TypeCode) : TypeCode.ofBytes t.bytes = some t := rfl

/-- Four bytes decode, and no other number of bytes does (R151). -/
theorem be32dec_isSome_iff {bs : List Byte} : (be32dec bs).isSome ↔ bs.length = 4 := by
  unfold be32dec
  split
  · simp
  · rename_i h
    simp only [Option.isSome_none, Bool.false_eq_true, false_iff]
    intro h4
    match bs, h4 with
    | [b0, b1, b2, b3], _ => exact h b0 b1 b2 b3 rfl

/-- There is a field at `a` exactly where `a + 4 <= len(buf)`, over the naturals (R155). -/
theorem fieldAt_isSome_iff {buf : List Byte} {a : Nat} : (fieldAt buf a).isSome ↔ a + 4 ≤ buf.length := by
  unfold fieldAt
  rw [be32dec_isSome_iff, memRead_length]
  omega

/-- The bytes are a type code exactly when they are that type code's bytes (R13). -/
theorem TypeCode.ofBytes_eq_some {bs : List Byte} {t : TypeCode} : TypeCode.ofBytes bs = some t ↔ bs = t.bytes := by
  constructor
  · intro h
    unfold TypeCode.ofBytes at h
    split at h
    · cases h; rfl
    · cases h
  · rintro rfl; rfl

/-! ### Operand registers (R312) -/

theorem needT_of_none {s : State} {f : TypeCode → Ending} (h : s.T = none) : needT s f = .fault .emptyOperand := by
  simp only [needT, h]

theorem needT_of_some {s : State} {f : TypeCode → Ending} {x : TypeCode} (h : s.T = some x) : needT s f = f x := by
  simp only [needT, h]

theorem needK_of_none {s : State} {f : Chunk → Ending} (h : s.K = none) : needK s f = .fault .emptyOperand := by
  simp only [needK, h]

theorem needK_of_some {s : State} {f : Chunk → Ending} {x : Chunk} (h : s.K = some x) : needK s f = f x := by
  simp only [needK, h]

theorem needP_of_none {s : State} {f : List Chunk → Ending} (h : s.P = none) : needP s f = .fault .emptyOperand := by
  simp only [needP, h]

theorem needP_of_some {s : State} {f : List Chunk → Ending} {x : List Chunk} (h : s.P = some x) : needP s f = f x := by
  simp only [needP, h]

/-! ### Writing -/

/-- `appendO` appends, or it is the `Capacity` fault (R313). -/
theorem appendO_cases (s : State) (v : List Byte) :
    (withinCap s.caps.stream (s.O.length + v.length) = true ∧ appendO s v = .done { s with O := s.O ++ v }) ∨
      (withinCap s.caps.stream (s.O.length + v.length) = false ∧ appendO s v = .fault .capacity) := by
  unfold appendO
  cases h : withinCap s.caps.stream (s.O.length + v.length) <;> simp

/-- `putK` writes the whole of `K`, or it is the `Capacity` fault (R28, R313). -/
theorem putK_cases (s : State) (c : Chunk) :
    (payloadFits s.caps c.data = true ∧ putK s c = .done { s with K := some c }) ∨
      (payloadFits s.caps c.data = false ∧ putK s c = .fault .capacity) := by
  unfold putK
  cases h : payloadFits s.caps c.data <;> simp

/-- Bytes already in a buffer keep their offsets when bytes are appended (R34). -/
theorem readByte_append {buf v : List Byte} {a : Nat} (h : a < buf.length) : readByte (buf ++ v) a = readByte buf a :=
  List.getElem?_append_left h

/-! ### The step -/

theorem step_of_command {s : State} {w : CommandWord} {rest : List HostEvent} (h : s.pending = .command w :: rest) :
    step s = match decodeWord w with
      | .ok i => exec i { s with pending := rest }
      | .error _ => execReserved { s with pending := rest } := by
  unfold step takeEvent
  rw [h]
  all_goals rfl

theorem step_of_reset {s : State} {rest : List HostEvent} (h : s.pending = .reset :: rest) :
    step s = .next (State.resetWith s.caps rest) := by
  unfold step takeEvent
  rw [h]
  all_goals rfl

theorem step_of_nothing {s : State} (h : s.pending = []) : step s = .next s := by
  unfold step takeEvent
  rw [h]

/-- What a step can be: idle, a reset, a command, or a reserved word. -/
theorem step_cases (s : State) :
    (s.pending = [] ∧ step s = .next s) ∨
    (∃ rest, s.pending = .reset :: rest ∧ step s = .next (State.resetWith s.caps rest)) ∨
    (∃ w rest i, s.pending = .command w :: rest ∧ decodeWord w = .ok i ∧
      step s = exec i { s with pending := rest }) ∨
    (∃ w rest e, s.pending = .command w :: rest ∧ decodeWord w = .error e ∧
      step s = execReserved { s with pending := rest }) := by
  match hp : s.pending with
  | [] => exact .inl ⟨rfl, step_of_nothing hp⟩
  | .reset :: rest => exact .inr (.inl ⟨rest, rfl, step_of_reset hp⟩)
  | .command w :: rest =>
      refine .inr (.inr ?_)
      have h := step_of_command hp
      cases hd : decodeWord w with
      | ok i => exact .inl ⟨w, rest, i, rfl, hd, by rw [h, hd]⟩
      | error e => exact .inr ⟨w, rest, e, rfl, hd, by rw [h, hd]⟩

end Sys2Proof.Machine
end

