-- ==== Sys2Proof/Laws/Meanings.lean ====
section
/-! SUPPORT. For each command, what `exec` is at a state without fault: the end of its body, settled by the envelope
(R300). Later proofs cite these and unfold no meaning. -/

namespace Sys2Proof.Machine

/-- R36: at a faulted state `exec` answers that state, whatever the command; each meaning is an envelope. -/
theorem exec_eq_envelope (i : Instr) : ∃ body : State → Ending, ∀ s, exec i s = envelope body s := by
  cases i <;> exact ⟨_, fun _ => rfl⟩

theorem exec_nop {s : State} (h : s.FLT = 0) :
    exec .nop s = settle s (
      .done s) :=
  if_neg fun h' => h' h

theorem exec_inClr {s : State} (h : s.FLT = 0) :
    exec .inClr s = settle s (
      .done { s with I := [] }) :=
  if_neg fun h' => h' h

theorem exec_inPush (imm8 : Byte) {s : State} (h : s.FLT = 0) :
    exec (.inPush imm8) s = settle s (
      if atCap s.caps.stream s.I.length then .fault .capacity else .done { s with I := s.I ++ [imm8] }) :=
  if_neg fun h' => h' h

theorem exec_outClr {s : State} (h : s.FLT = 0) :
    exec .outClr s = settle s (
      .done { s with O := [] }) :=
  if_neg fun h' => h' h

theorem exec_movIo {s : State} (h : s.FLT = 0) :
    exec .movIo s = settle s (
      .done { s with I := s.O }) :=
  if_neg fun h' => h' h

theorem exec_beEnc {s : State} (h : s.FLT = 0) :
    exec .beEnc s = settle s (
      appendO s (be32enc s.R)) :=
  if_neg fun h' => h' h

theorem exec_beDec (imm8 : Byte) {s : State} (h : s.FLT = 0) :
    exec (.beDec imm8) s = settle s (
      match fieldAt s.I (immOffset imm8) with
      | none => .raise .truncated
      | some v => putR s v) :=
  if_neg fun h' => h' h

theorem exec_crcInit {s : State} (h : s.FLT = 0) :
    exec .crcInit s = settle s (
      .done { s with C := crcInitValue }) :=
  if_neg fun h' => h' h

theorem exec_crcUpd (imm8 : Byte) {s : State} (h : s.FLT = 0) :
    exec (.crcUpd imm8) s = settle s (
      .done { s with C := crcStep s.C imm8 }) :=
  if_neg fun h' => h' h

theorem exec_crcUpdi {s : State} (h : s.FLT = 0) :
    exec .crcUpdi s = settle s (
      .done { s with C := crcUpdate s.C s.I }) :=
  if_neg fun h' => h' h

theorem exec_crcFin {s : State} (h : s.FLT = 0) :
    exec .crcFin s = settle s (
      putR s (s.C ^^^ crcXorOut)) :=
  if_neg fun h' => h' h

theorem exec_tcNew {s : State} (h : s.FLT = 0) :
    exec .tcNew s = settle s (
      putT s (tcConstruct (TypeCode.ofU32 s.R))) :=
  if_neg fun h' => h' h

theorem exec_tcNewt {s : State} (h : s.FLT = 0) :
    exec .tcNewt s = settle s (
      putT s (tcConstructFromText s.I)) :=
  if_neg fun h' => h' h

theorem exec_tcValid {s : State} (h : s.FLT = 0) :
    exec .tcValid s = settle s (
      predicateOfT TypeCode.isValid s) :=
  if_neg fun h' => h' h

theorem exec_tcCrit {s : State} (h : s.FLT = 0) :
    exec .tcCrit s = settle s (
      predicateOfT TypeCode.isCritical s) :=
  if_neg fun h' => h' h

theorem exec_tcPub {s : State} (h : s.FLT = 0) :
    exec .tcPub s = settle s (
      predicateOfT TypeCode.isPublic s) :=
  if_neg fun h' => h' h

theorem exec_tcRsv {s : State} (h : s.FLT = 0) :
    exec .tcRsv s = settle s (
      predicateOfT TypeCode.isReservedBitValid s) :=
  if_neg fun h' => h' h

theorem exec_tcSafe {s : State} (h : s.FLT = 0) :
    exec .tcSafe s = settle s (
      predicateOfT TypeCode.isSafeToCopy s) :=
  if_neg fun h' => h' h

theorem exec_tcBytes {s : State} (h : s.FLT = 0) :
    exec .tcBytes s = settle s (
      needT s fun t => putR s t.toU32) :=
  if_neg fun h' => h' h

theorem exec_tcText {s : State} (h : s.FLT = 0) :
    exec .tcText s = settle s (
      needT s fun t => appendO s t.bytes) :=
  if_neg fun h' => h' h

theorem exec_tcEq {s : State} (h : s.FLT = 0) :
    exec .tcEq s = settle s (
      needT s fun t => needK s fun k => putR s (zext32 (t == k.type))) :=
  if_neg fun h' => h' h

theorem exec_chNew {s : State} (h : s.FLT = 0) :
    exec .chNew s = settle s (
      needT s fun t => putK s (chunkNew t s.I)) :=
  if_neg fun h' => h' h

theorem exec_chLen {s : State} (h : s.FLT = 0) :
    exec .chLen s = settle s (
      needK s fun k => match chunkLength k with
      | none => .refuse .payloadTooLong
      | some len => putR s len) :=
  if_neg fun h' => h' h

theorem exec_chCrc {s : State} (h : s.FLT = 0) :
    exec .chCrc s = settle s (
      needK s fun k => putR s (chunkChecksum k)) :=
  if_neg fun h' => h' h

theorem exec_chType {s : State} (h : s.FLT = 0) :
    exec .chType s = settle s (
      needK s fun k => .done { s with T := some k.type }) :=
  if_neg fun h' => h' h

theorem exec_chData {s : State} (h : s.FLT = 0) :
    exec .chData s = settle s (
      needK s fun k => appendO s k.data) :=
  if_neg fun h' => h' h

theorem exec_chText {s : State} (h : s.FLT = 0) :
    exec .chText s = settle s (
      needK s fun k => match chunkPayloadAsText k with
      | .error e => .raise e
      | .ok text => appendO s text) :=
  if_neg fun h' => h' h

theorem exec_chSer {s : State} (h : s.FLT = 0) :
    exec .chSer s = settle s (
      needK s fun k => match chunkSerialize k with
      | none => .refuse .payloadTooLong
      | some out => appendO s out) :=
  if_neg fun h' => h' h

theorem exec_chParse {s : State} (h : s.FLT = 0) :
    exec .chParse s = settle s (
      match chunkParse s.I with
      | .error e => .raise e
      | .ok c => putK s c) :=
  if_neg fun h' => h' h

theorem exec_ctNew {s : State} (h : s.FLT = 0) :
    exec .ctNew s = settle s (
      .done { s with P := some containerNew }) :=
  if_neg fun h' => h' h

theorem exec_ctParse {s : State} (h : s.FLT = 0) :
    exec .ctParse s = settle s (
      match containerParse s.I with
      | .error k => .raise k
      | .ok q => if containerFits s.caps q then .done { s with P := some q } else .fault .capacity) :=
  if_neg fun h' => h' h

theorem exec_ctSer {s : State} (h : s.FLT = 0) :
    exec .ctSer s = settle s (
      needP s fun q => match containerSerialize q with
      | none => .refuse .payloadTooLong
      | some out => appendO s out) :=
  if_neg fun h' => h' h

theorem exec_ctAppend {s : State} (h : s.FLT = 0) :
    exec .ctAppend s = settle s (
      needP s fun q => needK s fun k => if atCap s.caps.chunks q.length then .fault .capacity else .done { s with P := some (containerAppend q k) }) :=
  if_neg fun h' => h' h

theorem exec_ctFind {s : State} (h : s.FLT = 0) :
    exec .ctFind s = settle s (
      needP s fun q => match containerFind q s.I with
      | none => .done { s with F := foundFlag (containerFind q s.I) }
      | some c => .done { s with K := some c, F := foundFlag (containerFind q s.I) }) :=
  if_neg fun h' => h' h

theorem exec_ctRemove {s : State} (h : s.FLT = 0) :
    exec .ctRemove s = settle s (
      needP s fun q => match containerRemove q s.I with
      | none => .raise .notFound
      | some (c, rest) => .done { s with K := some c, P := some rest }) :=
  if_neg fun h' => h' h

end Sys2Proof.Machine
end

