-- ==== Sys2Proof/Laws/Memory.lean ====
section
/-! SUPPORT. Every operation on the byte spaces and the container store keeps `Memory.wf` (R20, R60), and the memory
after reset has it. -/

namespace Sys2Proof.Machine

/-- `Memory.wf`, part by part. -/
theorem memory_wf_iff {s : State} : Memory.wf s = true ↔
    withinCap s.caps.stream s.I.length = true ∧ withinCap s.caps.stream s.O.length = true ∧
    (∀ k, s.K = some k → payloadFits s.caps k.data = true) ∧
    (∀ q, s.P = some q → withinCap s.caps.chunks q.length = true ∧ ∀ c ∈ q, payloadFits s.caps c.data = true) := by
  simp only [Memory.wf, Bool.and_eq_true, Option.all_eq_true, List.all_eq_true, and_assoc]

theorem reset_memory_wf : Memory.wf State.reset = true := by decide

theorem resetWith_memory_wf (caps : Capacities) (p : List HostEvent) : Memory.wf (State.resetWith caps p) = true := by
  have h : ∀ cap : Option Nat, withinCap cap 0 = true := fun cap => withinCap_iff.2 fun _ _ => Nat.zero_le _
  exact memory_wf_iff.2 ⟨h caps.stream, h caps.stream, (by intro _ hk; cases hk), (by intro _ hq; cases hq)⟩

/-- `O <- O ++ v` (R34). -/
theorem appendO_keeps_wf {s t : State} {v : List Byte} (hs : Memory.wf s = true) (h : appendO s v = .done t) :
    Memory.wf t = true := by
  rcases appendO_cases s v with ⟨hc, he⟩ | ⟨_, he⟩ <;> rw [he] at h
  · cases h
    obtain ⟨h1, _, h3, h4⟩ := memory_wf_iff.1 hs
    exact memory_wf_iff.2 ⟨h1, by simpa using hc, h3, h4⟩
  · cases h

/-- `K <- c` (R28). -/
theorem putK_keeps_wf {s t : State} {c : Chunk} (hs : Memory.wf s = true) (h : putK s c = .done t) :
    Memory.wf t = true := by
  rcases putK_cases s c with ⟨hc, he⟩ | ⟨_, he⟩ <;> rw [he] at h
  · cases h
    obtain ⟨h1, h2, _, h4⟩ := memory_wf_iff.1 hs
    exact memory_wf_iff.2 ⟨h1, h2, fun k hk => by cases hk; exact hc, h4⟩
  · cases h

/-- `I <- I ++ [b]` where `I` is not full (R132). -/
theorem pushI_keeps_wf {s : State} {b : Byte} (hs : Memory.wf s = true) (h : atCap s.caps.stream s.I.length = false) :
    Memory.wf { s with I := s.I ++ [b] } = true := by
  obtain ⟨h1, h2, h3, h4⟩ := memory_wf_iff.1 hs
  exact memory_wf_iff.2 ⟨by simpa using withinCap_succ h1 h, h2, h3, h4⟩

/-- `I <- []` and `O <- []` (R131, R133). -/
theorem clear_keeps_wf {s : State} (hs : Memory.wf s = true) :
    Memory.wf { s with I := [] } = true ∧ Memory.wf { s with O := [] } = true := by
  obtain ⟨h1, h2, h3, h4⟩ := memory_wf_iff.1 hs
  exact ⟨memory_wf_iff.2 ⟨withinCap_mono (Nat.zero_le _) h1, h2, h3, h4⟩,
    memory_wf_iff.2 ⟨h1, withinCap_mono (Nat.zero_le _) h2, h3, h4⟩⟩

/-- `I <- O` (R134: "`len(O) <= CAP_STREAM` always holds, so the copy always fits"). -/
theorem copyO_keeps_wf {s : State} (hs : Memory.wf s = true) : Memory.wf { s with I := s.O } = true := by
  obtain ⟨_, h2, h3, h4⟩ := memory_wf_iff.1 hs
  exact memory_wf_iff.2 ⟨h2, h2, h3, h4⟩

/-- `P <- q` where `q` fits (R270, R271). -/
theorem putP_keeps_wf {s : State} {q : List Chunk} (hs : Memory.wf s = true) (h : containerFits s.caps q = true) :
    Memory.wf { s with P := some q } = true := by
  obtain ⟨h1, h2, h3, _⟩ := memory_wf_iff.1 hs
  refine memory_wf_iff.2 ⟨h1, h2, h3, fun q' hq => ?_⟩
  cases hq
  simpa [containerFits] using h

/-- `P.seq <- P.seq ++ [K]` where `P` is not full (R273). -/
theorem appendP_keeps_wf {s : State} {q : List Chunk} {k : Chunk} (hs : Memory.wf s = true) (hp : s.P = some q)
    (hk : s.K = some k) (h : atCap s.caps.chunks q.length = false) :
    Memory.wf { s with P := some (containerAppend q k) } = true := by
  obtain ⟨_, _, h3, h4⟩ := memory_wf_iff.1 hs
  obtain ⟨h5, h6⟩ := h4 q hp
  refine putP_keeps_wf hs ?_
  simpa [containerFits, containerAppend, h3 k hk] using ⟨withinCap_succ h5 h, h6⟩

/-- What remove answers is taken from the container: the chunk and the others (R265). -/
theorem containerRemove_perm {q rest : List Chunk} {code : List Byte} {c : Chunk}
    (h : containerRemove q code = some (c, rest)) : q.Perm (c :: rest) := by
  induction q generalizing rest with
  | nil => simp [containerRemove] at h
  | cons d q ih =>
    unfold containerRemove at h
    split at h
    · cases h; exact List.Perm.refl _
    · split at h
      · cases h
      · rename_i r rest' hr
        cases h
        exact ((ih hr).cons d).trans (List.Perm.swap c d _)

/-- `CT.REMOVE`'s two writes (R275). -/
theorem removeP_keeps_wf {s : State} {q rest : List Chunk} {code : List Byte} {c : Chunk} (hs : Memory.wf s = true)
    (hp : s.P = some q) (h : containerRemove q code = some (c, rest)) :
    Memory.wf { s with K := some c, P := some rest } = true := by
  obtain ⟨h1, h2, _, h4⟩ := memory_wf_iff.1 hs
  obtain ⟨h5, h6⟩ := h4 q hp
  have hperm := containerRemove_perm h
  have hlen : q.length = rest.length + 1 := by simpa using hperm.length_eq
  refine memory_wf_iff.2 ⟨h1, h2, fun k hk => ?_, fun q' hq => ?_⟩
  · cases hk; exact h6 _ (hperm.mem_iff.2 (List.mem_cons_self ..))
  · cases hq
    exact ⟨withinCap_mono (by omega) h5, fun d hd => h6 d (hperm.mem_iff.2 (List.mem_cons_of_mem _ hd))⟩

end Sys2Proof.Machine
end

