-- ==== Sys2Proof/Laws/PerInstr.lean ====
section
/-! SUPPORT. The statements made for every instruction, one lemma a constructor. -/

namespace Sys2Proof.Laws

/-- The word of a command is a well-formed word (R94 to R96): its opcode is assigned, and its immediate is zero
where none is taken. -/
def EncodeWellFormed.Statement (i : Instr) : Prop := wordWellFormed (encode i) = true

/-- The opcode of a word made of two bytes is the first. -/
theorem wordOp_append (op imm : Byte) : wordOp (op ++ imm) = op := by
  unfold wordOp
  apply BitVec.eq_of_getLsbD_eq
  intro i hi
  rw [BitVec.getLsbD_extractLsb', BitVec.getLsbD_append]
  simp [hi]

/-- The immediate of a word made of two bytes is the second. -/
theorem wordImm_append (op imm : Byte) : wordImm (op ++ imm) = imm := by
  unfold wordImm
  apply BitVec.eq_of_getLsbD_eq
  intro i hi
  rw [BitVec.getLsbD_extractLsb', BitVec.getLsbD_append]
  simp [hi]

/-- A word whose opcode is assigned and takes an immediate is well formed. -/
theorem wellFormed_of_takesImm {op imm : Byte} (h : opReserved op = false) (h' : opTakesImm op = true) :
    wordWellFormed (op ++ imm) = true := by
  simp [wordWellFormed, wordOpAssigned, wordImmAllowed, wordOp_append, h, h']

theorem EncodeWellFormed.nop : EncodeWellFormed.Statement .nop := by
  unfold EncodeWellFormed.Statement; decide

theorem EncodeWellFormed.inClr : EncodeWellFormed.Statement .inClr := by
  unfold EncodeWellFormed.Statement; decide

theorem EncodeWellFormed.inPush (imm8 : Byte) : EncodeWellFormed.Statement (.inPush imm8) :=
  wellFormed_of_takesImm (op := 0x02) rfl rfl

theorem EncodeWellFormed.outClr : EncodeWellFormed.Statement .outClr := by
  unfold EncodeWellFormed.Statement; decide

theorem EncodeWellFormed.movIo : EncodeWellFormed.Statement .movIo := by
  unfold EncodeWellFormed.Statement; decide

theorem EncodeWellFormed.beEnc : EncodeWellFormed.Statement .beEnc := by
  unfold EncodeWellFormed.Statement; decide

theorem EncodeWellFormed.beDec (imm8 : Byte) : EncodeWellFormed.Statement (.beDec imm8) :=
  wellFormed_of_takesImm (op := 0x11) rfl rfl

theorem EncodeWellFormed.crcInit : EncodeWellFormed.Statement .crcInit := by
  unfold EncodeWellFormed.Statement; decide

theorem EncodeWellFormed.crcUpd (imm8 : Byte) : EncodeWellFormed.Statement (.crcUpd imm8) :=
  wellFormed_of_takesImm (op := 0x21) rfl rfl

theorem EncodeWellFormed.crcUpdi : EncodeWellFormed.Statement .crcUpdi := by
  unfold EncodeWellFormed.Statement; decide

theorem EncodeWellFormed.crcFin : EncodeWellFormed.Statement .crcFin := by
  unfold EncodeWellFormed.Statement; decide

theorem EncodeWellFormed.tcNew : EncodeWellFormed.Statement .tcNew := by
  unfold EncodeWellFormed.Statement; decide

theorem EncodeWellFormed.tcNewt : EncodeWellFormed.Statement .tcNewt := by
  unfold EncodeWellFormed.Statement; decide

theorem EncodeWellFormed.tcValid : EncodeWellFormed.Statement .tcValid := by
  unfold EncodeWellFormed.Statement; decide

theorem EncodeWellFormed.tcCrit : EncodeWellFormed.Statement .tcCrit := by
  unfold EncodeWellFormed.Statement; decide

theorem EncodeWellFormed.tcPub : EncodeWellFormed.Statement .tcPub := by
  unfold EncodeWellFormed.Statement; decide

theorem EncodeWellFormed.tcRsv : EncodeWellFormed.Statement .tcRsv := by
  unfold EncodeWellFormed.Statement; decide

theorem EncodeWellFormed.tcSafe : EncodeWellFormed.Statement .tcSafe := by
  unfold EncodeWellFormed.Statement; decide

theorem EncodeWellFormed.tcBytes : EncodeWellFormed.Statement .tcBytes := by
  unfold EncodeWellFormed.Statement; decide

theorem EncodeWellFormed.tcText : EncodeWellFormed.Statement .tcText := by
  unfold EncodeWellFormed.Statement; decide

theorem EncodeWellFormed.tcEq : EncodeWellFormed.Statement .tcEq := by
  unfold EncodeWellFormed.Statement; decide

theorem EncodeWellFormed.chNew : EncodeWellFormed.Statement .chNew := by
  unfold EncodeWellFormed.Statement; decide

theorem EncodeWellFormed.chLen : EncodeWellFormed.Statement .chLen := by
  unfold EncodeWellFormed.Statement; decide

theorem EncodeWellFormed.chCrc : EncodeWellFormed.Statement .chCrc := by
  unfold EncodeWellFormed.Statement; decide

theorem EncodeWellFormed.chType : EncodeWellFormed.Statement .chType := by
  unfold EncodeWellFormed.Statement; decide

theorem EncodeWellFormed.chData : EncodeWellFormed.Statement .chData := by
  unfold EncodeWellFormed.Statement; decide

theorem EncodeWellFormed.chText : EncodeWellFormed.Statement .chText := by
  unfold EncodeWellFormed.Statement; decide

theorem EncodeWellFormed.chSer : EncodeWellFormed.Statement .chSer := by
  unfold EncodeWellFormed.Statement; decide

theorem EncodeWellFormed.chParse : EncodeWellFormed.Statement .chParse := by
  unfold EncodeWellFormed.Statement; decide

theorem EncodeWellFormed.ctNew : EncodeWellFormed.Statement .ctNew := by
  unfold EncodeWellFormed.Statement; decide

theorem EncodeWellFormed.ctParse : EncodeWellFormed.Statement .ctParse := by
  unfold EncodeWellFormed.Statement; decide

theorem EncodeWellFormed.ctSer : EncodeWellFormed.Statement .ctSer := by
  unfold EncodeWellFormed.Statement; decide

theorem EncodeWellFormed.ctAppend : EncodeWellFormed.Statement .ctAppend := by
  unfold EncodeWellFormed.Statement; decide

theorem EncodeWellFormed.ctFind : EncodeWellFormed.Statement .ctFind := by
  unfold EncodeWellFormed.Statement; decide

theorem EncodeWellFormed.ctRemove : EncodeWellFormed.Statement .ctRemove := by
  unfold EncodeWellFormed.Statement; decide

end Sys2Proof.Laws
end

