-- ==== Sys2Proof/Tests/Slice0.lean ====
section
/-! SUPPORT. The model's own tests: the well-formedness smoke, every command's word written out from the spec's map
(R93), one step of each command on rows of 95_test_vectors.md (the row is named), and for each obligation with
hypotheses a state and operands that meet them, clause by clause, at the boundaries. -/

namespace Sys2Proof.Tests

open Sys2Proof Sys2Proof.Machine Host

/-- The outcome is this next state. -/
def ran (o : Outcome State Fault Refusal) (t : State) : Bool :=
  match o with
  | .next s => s == t
  | .fault _ => false
  | .refused _ => false

/-- The bytes of an ASCII text. -/
def ascii (s : String) : List Byte := s.toList.map (fun c => BitVec.ofNat 8 c.toNat)

def ruSt : TypeCode := ⟨0x72, 0x75, 0x53, 0x74⟩
def iend : TypeCode := ⟨0x49, 0x45, 0x4E, 0x44⟩
def teXt : TypeCode := ⟨0x74, 0x65, 0x58, 0x74⟩
def hello : List Byte := [0x68, 0x65, 0x6C, 0x6C, 0x6F]
def kHello : Chunk := ⟨ruSt, hello⟩
def kIend : Chunk := ⟨iend, []⟩
def kText : Chunk := ⟨teXt, [0x62]⟩

/-- V-CH1: the record of `kHello`. -/
def recHello : List Byte :=
  [0x00, 0x00, 0x00, 0x05, 0x72, 0x75, 0x53, 0x74, 0x68, 0x65, 0x6C, 0x6C, 0x6F, 0xAE, 0x50, 0x8D, 0x6F]

/-- V-CH2: the record of `kIend`. -/
def recIend : List Byte := [0x00, 0x00, 0x00, 0x00, 0x49, 0x45, 0x4E, 0x44, 0xAE, 0x42, 0x60, 0x82]

/-- A state without fault in which every element holds something. -/
def full : State :=
  { State.reset with
    R := 0xAE426082, C := 0x12345678, T := some ruSt, K := some kHello, P := some [kHello, kText],
    I := ascii "teXt", O := [0x49], S := 0x08, F := true }

/-- The same, in a block with these capacities. -/
def fullIn (stream : Option Nat) (payload : Fin (lenMax + 1)) (chunks : Option Nat) : State :=
  { full with caps := { stream := stream, payload := payload, chunks := chunks } }

/-- The same, with this input buffer. -/
def withI (i : List Byte) : State := { full with I := i }

/-! ### Well-formedness (R94, R95) -/

theorem test_wf_reserved_opcode : wordOpAssigned 0x0500 = false ∧ wordWellFormed 0x0500 = false := by decide
theorem test_wf_reserved_immediate : wordImmAllowed 0x0001 = false ∧ wordWellFormed 0x0001 = false := by decide
theorem test_wf_good : wordWellFormed 0x02FF = true ∧ wordWellFormed 0x5500 = true := by decide

/-! ### Decoding (R93 to R97) -/

theorem test_decode_buffer :
    decodeWord 0x0000 = .ok .nop ∧ decodeWord 0x0100 = .ok .inClr ∧ decodeWord 0x02AB = .ok (.inPush 0xAB) ∧
    decodeWord 0x0300 = .ok .outClr ∧ decodeWord 0x0400 = .ok .movIo := ⟨rfl, rfl, rfl, rfl, rfl⟩
theorem test_decode_be : decodeWord 0x1000 = .ok .beEnc ∧ decodeWord 0x11FF = .ok (.beDec 0xFF) := ⟨rfl, rfl⟩
theorem test_decode_crc :
    decodeWord 0x2000 = .ok .crcInit ∧ decodeWord 0x2161 = .ok (.crcUpd 0x61) ∧ decodeWord 0x2200 = .ok .crcUpdi ∧
    decodeWord 0x2300 = .ok .crcFin := ⟨rfl, rfl, rfl, rfl⟩
theorem test_decode_tc :
    decodeWord 0x3000 = .ok .tcNew ∧ decodeWord 0x3100 = .ok .tcNewt ∧ decodeWord 0x3200 = .ok .tcValid ∧
    decodeWord 0x3300 = .ok .tcCrit ∧ decodeWord 0x3400 = .ok .tcPub ∧ decodeWord 0x3500 = .ok .tcRsv ∧
    decodeWord 0x3600 = .ok .tcSafe ∧ decodeWord 0x3700 = .ok .tcBytes ∧ decodeWord 0x3800 = .ok .tcText ∧
    decodeWord 0x3900 = .ok .tcEq := ⟨rfl, rfl, rfl, rfl, rfl, rfl, rfl, rfl, rfl, rfl⟩
theorem test_decode_ch :
    decodeWord 0x4000 = .ok .chNew ∧ decodeWord 0x4100 = .ok .chLen ∧ decodeWord 0x4200 = .ok .chCrc ∧
    decodeWord 0x4300 = .ok .chType ∧ decodeWord 0x4400 = .ok .chData ∧ decodeWord 0x4500 = .ok .chText ∧
    decodeWord 0x4600 = .ok .chSer ∧ decodeWord 0x4700 = .ok .chParse := ⟨rfl, rfl, rfl, rfl, rfl, rfl, rfl, rfl⟩
theorem test_decode_ct :
    decodeWord 0x5000 = .ok .ctNew ∧ decodeWord 0x5100 = .ok .ctParse ∧ decodeWord 0x5200 = .ok .ctSer ∧
    decodeWord 0x5300 = .ok .ctAppend ∧ decodeWord 0x5400 = .ok .ctFind ∧ decodeWord 0x5500 = .ok .ctRemove :=
  ⟨rfl, rfl, rfl, rfl, rfl, rfl⟩
/-- V-DEC2 to V-DEC10, V-DEC14, V-DEC15. -/
theorem test_decode_reserved :
    ([0x0500, 0x1200, 0x2400, 0x3A00, 0x4800, 0x5600, 0x6000, 0xFFFF] : List CommandWord).all
      (fun w => (decodeWord w matches .error .reservedOpcode)) = true ∧
    ([0x0001, 0x2001, 0x5401] : List CommandWord).all
      (fun w => (decodeWord w matches .error .reservedImmediate)) = true := by decide
/-- R97: "`0x0272` is the bytes `02 72`". -/
theorem test_listing : decodeListing [0x02, 0x72, 0x55, 0x00] = .ok [.inPush 0x72, .ctRemove] ∧
    encodeListing [.inPush 0x72, .ctRemove] = [0x02, 0x72, 0x55, 0x00] ∧
    decodeListing [0x02] = .error .oddByte := ⟨rfl, rfl, rfl⟩
theorem test_table_word : decodeTableWord 16 0x11FF = some (.beDec 0xFF) ∧ decodeTableWord 16 0x4801 = none := by decide

/-! ### The assembler (R98, R99) -/

theorem test_asm_pseudo : asmLine "IN.BYTES 89 50" = .ok [.inClr, .inPush 0x89, .inPush 0x50] ∧
    asmLine "IN.BYTES \"a b\" ; text" = .ok [.inClr, .inPush 0x61, .inPush 0x20, .inPush 0x62] ∧
    asmLine "LD.R 0x49454E44" =
      .ok [.inClr, .inPush 0x49, .inPush 0x45, .inPush 0x4E, .inPush 0x44, .beDec 0] := ⟨rfl, rfl, rfl⟩
theorem test_asm_refuses : asmLine "IN.PUSH 256" = .error .badOperand ∧ asmLine "LD.R" = .error .badOperand ∧
    asmLine ".word 0x0001" = .error .unknownMnemonic ∧ asmLine "" = .ok [] := ⟨rfl, rfl, rfl, rfl⟩

/-! ### Functions -/

/-- V-CRC1, V-CRC2, V-CRC5, V-CRC7, V-CRC10; by the other two formulations too. -/
theorem test_crc32_rows : crc32 [] = 0x00000000 ∧ crc32 [0x61] = 0xE8B7BE43 ∧ crc32 (ascii "IEND") = 0xAE426082 ∧
    crc32 [0xFF] = 0xFF000000 ∧ crc32 (ascii "ruSthello") = 0xAE508D6F ∧
    crc32Msb (ascii "ruSthello") = 0xAE508D6F ∧ crcTabStep 0xFFFFFFFF 0x61 = 0x174841BC := by decide +kernel
/-- V-UTF1 to V-UTF12. -/
theorem test_utf8_good : ([[], [0x68, 0x65], [0xC3, 0xA9], [0xE2, 0x82, 0xAC], [0xF0, 0x9F, 0x98, 0x80], [0xED, 0x9F, 0xBF],
    [0xEE, 0x80, 0x80], [0xF4, 0x8F, 0xBF, 0xBF], [0xE0, 0xA0, 0x80], [0xF0, 0x90, 0x80, 0x80], [0xC2, 0x80],
    [0x61, 0x00, 0x62]] : List (List Byte)).all utf8Valid = true := by decide
/-- V-UTF13 to V-UTF26. -/
theorem test_utf8_bad : ([[0xC0, 0x80], [0xC1, 0xBF], [0xE0, 0x9F, 0xBF], [0xF0, 0x8F, 0xBF, 0xBF], [0xED, 0xA0, 0x80],
    [0xF4, 0x90, 0x80, 0x80], [0xF5, 0x80, 0x80, 0x80], [0xFF], [0x80], [0xC2], [0xE2, 0x82], [0xC3, 0x28],
    [0x68, 0xFF], [0x00, 0xFF, 0x80, 0x7F]] : List (List Byte)).any utf8Valid = false := by decide

/-! ### One step of each command -/

/-- V-BUF1. -/
theorem test_nop : ran (exec .nop full) { full with S := 0x00 } = true := by decide
/-- V-BUF2. -/
theorem test_inClr : ran (exec .inClr full) { full with I := [], S := 0x00 } = true := by decide
/-- V-BUF4. -/
theorem test_inPush : ran (exec (.inPush 0) (withI [0xAB])) { withI [0xAB, 0x00] with S := 0x00 } = true := by decide
/-- V-BUF9. -/
theorem test_inPush_full : ran (exec (.inPush 0) (fullIn (some 4) 9 none))
    { fullIn (some 4) 9 none with S := 0x82, FLT := 0b100 } = true := by decide
/-- V-BUF5. -/
theorem test_outClr : ran (exec .outClr full) { full with O := [], S := 0x00 } = true := by decide
/-- V-BUF6. -/
theorem test_movIo : ran (exec .movIo full) { full with I := [0x49], S := 0x00 } = true := by decide
/-- V-BE9. -/
theorem test_beEnc : ran (exec .beEnc full) { full with O := [0x49, 0xAE, 0x42, 0x60, 0x82], S := 0x00 } = true := by decide
/-- V-BE11. -/
theorem test_beDec : ran (exec (.beDec 4) (withI [0, 0, 0, 5, 0x72, 0x75, 0x53, 0x74]))
    { withI [0, 0, 0, 5, 0x72, 0x75, 0x53, 0x74] with R := 0x72755374, S := 0x00 } = true := by decide
/-- V-BE12. -/
theorem test_beDec_truncated : ran (exec (.beDec 5) (withI [0, 0, 0, 5, 0x72, 0x75, 0x53, 0x74]))
    { withI [0, 0, 0, 5, 0x72, 0x75, 0x53, 0x74] with S := 0x03 } = true := by decide
/-- V-CRC20. -/
theorem test_crcInit : ran (exec .crcInit full) { full with C := 0xFFFFFFFF, S := 0x00 } = true := by decide
/-- V-CRC21. -/
theorem test_crcUpd : ran (exec (.crcUpd 0x61) { full with C := 0xFFFFFFFF }) { full with C := 0x174841BC, S := 0x00 } = true := by
  decide
/-- V-CRC23. -/
theorem test_crcUpdi : ran (exec .crcUpdi { withI (ascii "123456789") with C := 0xFFFFFFFF })
    { withI (ascii "123456789") with C := 0x340BC6D9, S := 0x00 } = true := by decide +kernel
/-- V-CRC24. -/
theorem test_crcFin : ran (exec .crcFin { full with C := 0x340BC6D9 })
    { full with C := 0x340BC6D9, R := 0xCBF43926, S := 0x00 } = true := by decide
/-- V-TCN9. -/
theorem test_tcNew : ran (exec .tcNew { full with R := 0x415A617A })
    { full with R := 0x415A617A, T := some ⟨0x41, 0x5A, 0x61, 0x7A⟩, S := 0x00 } = true := by decide
/-- V-TCN3 to V-TCN6, V-TCN8: the bytes beside the letters' ranges. -/
theorem test_tcNew_bad : ([0x40424344, 0x5B424344, 0x60626364, 0x7B626364, 0x414243C1] : List U32).all
    (fun v => ran (exec .tcNew { full with R := v }) { full with R := v, S := 0x01 }) = true := by decide
/-- V-TCN14. -/
theorem test_tcNewt : ran (exec .tcNewt { withI (ascii "ruSt") with T := none }) { withI (ascii "ruSt") with S := 0x00 } = true := by
  decide
/-- V-TCN15, V-TCN18. -/
theorem test_tcNewt_bad :
    ran (exec .tcNewt (withI [0xC3, 0xA9, 0x61, 0x62])) { withI [0xC3, 0xA9, 0x61, 0x62] with S := 0x01 } = true ∧
    ran (exec .tcNewt (withI [0x72, 0xC3, 0xBC, 0x53, 0x74])) { withI [0x72, 0xC3, 0xBC, 0x53, 0x74] with S := 0x02 } = true := by
  decide
/-- V-TC1, V-TC3: `RuSt` against `Rust`. -/
theorem test_tcValid : ran (exec .tcValid { full with T := some ⟨0x52, 0x75, 0x53, 0x74⟩ })
      { full with T := some ⟨0x52, 0x75, 0x53, 0x74⟩, R := 1, S := 0x00 } = true ∧
    ran (exec .tcValid { full with T := some ⟨0x52, 0x75, 0x73, 0x74⟩ })
      { full with T := some ⟨0x52, 0x75, 0x73, 0x74⟩, R := 0, S := 0x00 } = true := by decide
/-- V-TC2, V-TC6. -/
theorem test_tcCrit : ran (exec .tcCrit full) { full with R := 0, S := 0x00 } = true ∧
    ran (exec .tcCrit { full with T := some iend }) { full with T := some iend, R := 1, S := 0x00 } = true := by decide
/-- V-TC2, V-TC6. -/
theorem test_tcPub : ran (exec .tcPub full) { full with R := 0, S := 0x00 } = true ∧
    ran (exec .tcPub { full with T := some iend }) { full with T := some iend, R := 1, S := 0x00 } = true := by decide
/-- V-TC2, V-TC10. -/
theorem test_tcRsv : ran (exec .tcRsv full) { full with R := 1, S := 0x00 } = true ∧
    ran (exec .tcRsv { full with T := some ⟨0x61, 0x61, 0x61, 0x61⟩ })
      { full with T := some ⟨0x61, 0x61, 0x61, 0x61⟩, R := 0, S := 0x00 } = true := by decide
/-- V-TC2, V-TC6. -/
theorem test_tcSafe : ran (exec .tcSafe full) { full with R := 1, S := 0x00 } = true ∧
    ran (exec .tcSafe { full with T := some iend }) { full with T := some iend, R := 0, S := 0x00 } = true := by decide
/-- V-TCA1, V-TCA6. -/
theorem test_tcBytes : ran (exec .tcBytes full) { full with R := 0x72755374, S := 0x00 } = true ∧
    ran (exec .tcBytes { full with T := none }) { full with T := none, S := 0x81, FLT := 0b010 } = true := by decide
/-- V-TCA3. -/
theorem test_tcText : ran (exec .tcText full) { full with O := [0x49, 0x72, 0x75, 0x53, 0x74], S := 0x00 } = true := by decide
/-- V-TCA4, V-TCA5. -/
theorem test_tcEq : ran (exec .tcEq full) { full with R := 1, S := 0x00 } = true ∧
    ran (exec .tcEq { full with T := some ⟨0x52, 0x75, 0x53, 0x74⟩ })
      { full with T := some ⟨0x52, 0x75, 0x53, 0x74⟩, R := 0, S := 0x00 } = true := by decide
/-- V-CHC1. -/
theorem test_chNew : ran (exec .chNew { withI hello with K := none }) { withI hello with S := 0x00 } = true := by decide
/-- R230: the payload does not fit. -/
theorem test_chNew_full : ran (exec .chNew (fullIn none 3 none)) { fullIn none 3 none with S := 0x82, FLT := 0b100 } = true := by
  decide
/-- V-CH1, V-CHC9. -/
theorem test_chLen : ran (exec .chLen full) { full with R := 5, S := 0x00 } = true ∧
    ran (exec .chLen { full with K := none }) { full with K := none, S := 0x81, FLT := 0b010 } = true := by decide
/-- V-CHC8. -/
theorem test_chCrc : ran (exec .chCrc full) { full with R := 0xAE508D6F, S := 0x00 } = true := by decide +kernel
/-- V-CHC4. -/
theorem test_chType : ran (exec .chType { full with T := some iend }) { full with S := 0x00 } = true := by decide
/-- V-CHC6. -/
theorem test_chData : ran (exec .chData { full with K := some ⟨iend, [0x00, 0xFF, 0x80, 0x7F]⟩ })
    { full with K := some ⟨iend, [0x00, 0xFF, 0x80, 0x7F]⟩, O := [0x49, 0x00, 0xFF, 0x80, 0x7F], S := 0x00 } = true := by
  decide
/-- V-UTF2. -/
theorem test_chText : ran (exec .chText full) { full with O := [0x49, 0x68, 0x65, 0x6C, 0x6C, 0x6F], S := 0x00 } = true := by
  decide
/-- V-UTF26; the text test comes before the room (R322). -/
theorem test_chText_bad : ran (exec .chText { fullIn (some 0) 9 none with K := some ⟨iend, [0x00, 0xFF]⟩ })
    { fullIn (some 0) 9 none with K := some ⟨iend, [0x00, 0xFF]⟩, S := 0x09 } = true := by decide
/-- V-CHC7. -/
theorem test_chSer : ran (exec .chSer full) { full with O := [0x49] ++ recHello, S := 0x00 } = true := by decide +kernel
/-- The record of `kHello`, read back. -/
theorem test_chParse : ran (exec .chParse { withI recHello with K := none }) { withI recHello with S := 0x00 } = true := by
  decide +kernel
/-- V-CHP2, V-CHP6, V-CHP8, V-CHP11: each earlier check is the one reported. -/
theorem test_chParse_bad :
    ran (exec .chParse (withI (recHello.take 11))) { withI (recHello.take 11) with S := 0x03 } = true ∧
    ran (exec .chParse (withI ([0, 0, 0, 4, 0x72, 0x75, 0x35, 0x74] ++ recHello.drop 8)))
      { withI ([0, 0, 0, 4, 0x72, 0x75, 0x35, 0x74] ++ recHello.drop 8) with S := 0x04 } = true ∧
    ran (exec .chParse (withI ([0, 0, 0, 5, 0x72, 0x75, 0x35, 0x74] ++ recHello.drop 8)))
      { withI ([0, 0, 0, 5, 0x72, 0x75, 0x35, 0x74] ++ recHello.drop 8) with S := 0x05 } = true ∧
    ran (exec .chParse (withI (recIend.take 11 ++ [0x83]))) { withI (recIend.take 11 ++ [0x83]) with S := 0x06 } = true := by
  decide +kernel
/-- V-CT4.1. -/
theorem test_ctNew : ran (exec .ctNew full) { full with P := some [], S := 0x00 } = true := by decide
/-- V-CT1.14. -/
theorem test_ctParse : ran (exec .ctParse (withI (sig ++ recIend ++ recHello)))
    { withI (sig ++ recIend ++ recHello) with P := some [kIend, kHello], S := 0x00 } = true := by decide +kernel
/-- V-CT1.2, V-CT1.8, V-CT1.19, V-CT1.21: `BadSignature`, `Truncated` twice, `ChecksumMismatch`. -/
theorem test_ctParse_bad :
    ran (exec .ctParse (withI (sig.take 7))) { withI (sig.take 7) with S := 0x07 } = true ∧
    ran (exec .ctParse (withI (sig ++ [0, 0, 0]))) { withI (sig ++ [0, 0, 0]) with S := 0x03 } = true ∧
    ran (exec .ctParse (withI (sig ++ [0xFF, 0xFF, 0xFF, 0xFF] ++ recIend.drop 4)))
      { withI (sig ++ [0xFF, 0xFF, 0xFF, 0xFF] ++ recIend.drop 4) with S := 0x03 } = true ∧
    ran (exec .ctParse (withI (sig ++ [0, 0, 0, 4] ++ recHello.drop 4)))
      { withI (sig ++ [0, 0, 0, 4] ++ recHello.drop 4) with S := 0x06 } = true := by decide +kernel
/-- V-CT4.4. -/
theorem test_ctSer : ran (exec .ctSer { full with P := some [kHello, kIend], O := [] })
    { full with P := some [kHello, kIend], O := sig ++ recHello ++ recIend, S := 0x00 } = true := by decide +kernel
/-- V-CT4.5. -/
theorem test_ctAppend : ran (exec .ctAppend { full with P := some [kIend] })
    { full with P := some [kIend, kHello], S := 0x00 } = true := by decide
/-- R273: no room, and the priority of R322 (an empty register comes before it). -/
theorem test_ctAppend_bad : ran (exec .ctAppend (fullIn none 9 (some 2)))
      { fullIn none 9 (some 2) with S := 0x82, FLT := 0b100 } = true ∧
    ran (exec .ctAppend { fullIn none 9 (some 2) with K := none })
      { fullIn none 9 (some 2) with K := none, S := 0x81, FLT := 0b010 } = true := by decide
/-- V-CT3.1. -/
theorem test_ctFind : ran (exec .ctFind { full with F := false }) { full with K := some kText, S := 0x00 } = true := by decide
/-- V-CT3.3, V-CT3.4: absent is `OK` with `F` 0. -/
theorem test_ctFind_absent : ran (exec .ctFind (withI (ascii "TEXT"))) { withI (ascii "TEXT") with F := false, S := 0x00 } = true ∧
    ran (exec .ctFind (withI (ascii "teX"))) { withI (ascii "teX") with F := false, S := 0x00 } = true := by decide
/-- V-CT3.2, V-CT3.1. -/
theorem test_ctRemove : ran (exec .ctRemove full) { full with K := some kText, P := some [kHello], S := 0x00 } = true := by decide
/-- V-CT3.8. -/
theorem test_ctRemove_absent : ran (exec .ctRemove (withI (ascii "IEND"))) { withI (ascii "IEND") with S := 0x08 } = true := by
  decide

/-! ### Steps -/

/-- V-DEC11: the first command after reset, presented as the host presents it. -/
theorem test_step_first : ran (step (State.reset.withFetchWord 16 0x02FF)) { State.reset with I := [0xFF] } = true := by decide
/-- V-DEC15: `IllegalCommand` outranks `EmptyOperand`. -/
theorem test_step_illegal : ran (step (State.reset.withFetchWord 16 0x5401))
    { State.reset with S := 0x80, FLT := 0b001 } = true := by decide
/-- V-DEC16: a faulted block ignores the `NOP`. -/
theorem test_step_faulted : ran (step { full with FLT := 0b010, S := 0x81, pending := [.command 0x0000, .reset] })
    { full with FLT := 0b010, S := 0x81, pending := [.reset] } = true := by decide
/-- R341. -/
theorem test_step_reset : ran (step { fullIn (some 9) 9 none with FLT := 0b010, S := 0x81, pending := [.reset] })
    (State.resetWith (fullIn (some 9) 9 none).caps []) = true := by decide
theorem test_step_idle : ran (step full) full = true := by decide
/-- R350: what the host reads. -/
theorem test_hostView : full.hostView = ⟨0xAE426082, 0x12345678, 0x08, true, 0, [0x49], ascii "teXt", true, true, true⟩ := by
  decide

/-! ### Witnesses: states and operands that meet the hypotheses of each obligation -/

theorem test_witness_ResetLeavesTheSpecsValues :
    ∃ s : State, s ≠ State.reset ∧ ∃ (caps : Capacities) (p : List HostEvent), s = State.resetWith caps p :=
  ⟨State.resetWith (fullIn (some 9) 9 none).caps [.reset], by decide, _, _, rfl⟩

theorem test_witness_ResetEventSetsEveryElement : ∃ (s t : State) (rest : List HostEvent),
    s.pending = .reset :: rest ∧ step s = .next t ∧ s.FLT ≠ 0 ∧ t.FLT = 0 :=
  ⟨{ full with FLT := 0b010, pending := [.reset] }, State.reset, [], rfl, rfl, by decide, rfl⟩

theorem test_witness_OnlyResetClearsValidBitsAndFaults :
    (∃ (s t : State) (w : CommandWord) (rest : List HostEvent), s.pending = .command w :: rest ∧ step s = .next t ∧
      s.T.isSome ∧ s.K.isSome ∧ s.P.isSome) ∧
    (∃ (s t : State) (w : CommandWord) (rest : List HostEvent), s.pending = .command w :: rest ∧ step s = .next t ∧
      s.FLT[(0 : Fin 3)] = true ∧ s.FLT[(2 : Fin 3)] = true) :=
  ⟨⟨{ full with pending := [.command 0x0000] }, { full with S := 0x00 }, 0x0000, [], rfl, rfl, rfl, rfl, rfl⟩,
   ⟨{ full with FLT := 0b101, pending := [.command 0x0000] }, { full with FLT := 0b101 }, 0x0000, [], rfl, rfl, rfl, rfl⟩⟩

theorem test_witness_StepRunsTheDecodedCommand :
    (∃ (s : State) (w : CommandWord) (rest : List HostEvent) (i : Instr),
      s.pending = .command w :: rest ∧ decodeWord w = .ok i) ∧
    (∃ (s : State) (w : CommandWord) (rest : List HostEvent) (e : DecodeError),
      s.pending = .command w :: rest ∧ decodeWord w = .error e) ∧ (∃ s : State, s.pending = []) :=
  ⟨⟨{ full with pending := [.command 0x5500] }, _, _, .ctRemove, rfl, rfl⟩,
   ⟨{ full with pending := [.command 0x5600] }, _, _, .reservedOpcode, rfl, rfl⟩, full, rfl⟩

/-- Both ends of each reserved range, and immediates 1 and 255; and a state for `wordIsIllegal`. -/
theorem test_witness_ReservedWordIsIllegalCommand :
    ([0x0500, 0x0FFF, 0x1200, 0x1FFF, 0x2400, 0x2FFF, 0x3A00, 0x3FFF, 0x4800, 0x4FFF, 0x5600, 0xFFFF] : List CommandWord).all
      (fun w => opReserved (wordOp w)) = true ∧
    ([0x0001, 0x00FF, 0x1001, 0x55FF] : List CommandWord).all
      (fun w => !opTakesImm (wordOp w) && wordImm w != 0) = true ∧
    (∃ (s : State) (rest : List HostEvent), s.pending = .command 0x5600 :: rest ∧ s.FLT = 0) :=
  ⟨by decide, by decide, { full with pending := [.command 0x5600] }, [], rfl, rfl⟩

theorem test_witness_FaultedBlockExecutesNothing :
    ∃ (s : State) (w : CommandWord) (rest : List HostEvent), s.pending = .command w :: rest ∧ s.FLT ≠ 0 :=
  ⟨{ full with FLT := 0b100, pending := [.command 0x5000] }, _, _, rfl, by decide⟩

/-- At capacities that are just enough. -/
theorem test_witness_PseudoInstructionsHaveTheirEffects :
    (∃ (bs : List Byte) (s : State), s.FLT = 0 ∧ s.caps.stream = some bs.length ∧ withinCap s.caps.stream bs.length = true) ∧
    (∃ s : State, s.FLT = 0 ∧ s.caps.stream = some 4 ∧ withinCap s.caps.stream 4 = true) :=
  ⟨⟨hello, fullIn (some 5) 9 none, by decide⟩, fullIn (some 4) 9 none, by decide⟩

theorem test_witness_AssemblerReadsTheMnemonics : Instr.nop ∈ plainInstrs ∧ Instr.ctRemove ∈ plainInstrs := by decide

/-- `FLT = 0` alone: `PlainBufferCommands`, `CrcInitAndCrcFin`, `CrcUpdAndCrcUpdi`, `CtNewMakesAnEmptyContainer`,
`CrcSessionGivesTheChecksum` (its second clause), `EveryCommandEndsInOneOfThreeWays` and the encodings' premises. -/
theorem test_witness_running : full.FLT = 0 := rfl

theorem test_witness_plainEncoding : ∃ (s : State) (rest : List HostEvent), s.pending = .command ((0x00 : Byte) ++ (0x00 : Byte)) :: rest ∧
    (0xFF : Byte) ≠ 0 := ⟨{ full with pending := [.command 0x0000] }, [], rfl, by decide⟩

theorem test_witness_InPushAppendsItsByte :
    (∃ s : State, s.FLT = 0 ∧ s.caps.stream = none ∧ s.caps.stream ≠ some s.I.length) ∧
    (∃ s : State, s.FLT = 0 ∧ s.caps.stream = some (s.I.length + 1) ∧ s.caps.stream ≠ some s.I.length) ∧
    (∃ s : State, s.FLT = 0 ∧ s.caps.stream = some s.I.length) :=
  ⟨⟨full, by decide⟩, ⟨fullIn (some 5) 9 none, by decide⟩, fullIn (some 4) 9 none, by decide⟩

theorem test_witness_Be32 : (0 : Nat) ≤ 3 ∧ (3 : Nat) ≤ 3 ∧ be32dec [0x72, 0x75, 0x53, 0x74] = some 0x72755374 := by decide

/-- `O` holds one byte, so capacity 5 is just enough and 4 just too little. -/
theorem test_witness_BeEncAppendsR :
    (∃ s : State, s.FLT = 0 ∧ withinCap s.caps.stream (s.O.length + 4) = true) ∧
    (∃ s : State, s.FLT = 0 ∧ withinCap s.caps.stream (s.O.length + 4) = false) :=
  ⟨⟨fullIn (some 5) 9 none, by decide⟩, fullIn (some 4) 9 none, by decide⟩

theorem test_witness_BeDecReadsTheFieldAtItsOffset :
    (∃ (imm : Byte) (s : State), s.FLT = 0 ∧ imm.toNat + 4 = s.I.length ∧ imm.toNat + 4 ≤ s.I.length) ∧
    (∃ (imm : Byte) (s : State), s.FLT = 0 ∧ imm.toNat + 4 = s.I.length + 1 ∧ s.I.length < imm.toNat + 4) ∧
    (∃ s : State, s.FLT = 0 ∧ s.I.length < (0xFF : Byte).toNat + 4) :=
  ⟨⟨0, full, by decide⟩, ⟨1, full, by decide⟩, full, by decide⟩

/-- The third clause: pieces that just fit, the empty one among them. -/
theorem test_witness_CrcSessionGivesTheChecksum : ∃ (ps : List (List Byte)) (s : State), s.FLT = 0 ∧ [] ∈ ps ∧
    s.caps.stream = some 5 ∧ hello ∈ ps ∧ ∀ p ∈ ps, withinCap s.caps.stream p.length = true :=
  ⟨[ascii "ruSt", [], hello], fullIn (some 5) 9 none, by decide⟩

theorem test_witness_OneBitErrorChangesTheCrc : (0 : Nat) < 8 ∧ (7 : Nat) < 8 := by decide

theorem test_witness_TypePredicatesAreTheCaseOfOneByte :
    TypeCode.isAlpha ⟨0x41, 0x5A, 0x61, 0x7A⟩ = true ∧ TypeCode.isAlpha ⟨0x61, 0x61, 0x5A, 0x41⟩ = true := by decide

theorem test_witness_TcNewConstructsFromR :
    (∃ s : State, s.FLT = 0 ∧ be32enc s.R = [0x41, 0x5A, 0x61, 0x7A] ∧
      (isAlpha 0x41 && isAlpha 0x5A && isAlpha 0x61 && isAlpha 0x7A) = true) ∧
    (∃ s : State, s.FLT = 0 ∧ be32enc s.R = [0x41, 0x42, 0x43, 0x5B] ∧
      (isAlpha 0x41 && isAlpha 0x42 && isAlpha 0x43 && isAlpha 0x5B) = false) :=
  ⟨⟨{ full with R := 0x415A617A }, by decide⟩, { full with R := 0x4142435B }, by decide⟩

theorem test_witness_TcNewtConstructsFromText :
    (∃ s : State, s.FLT = 0 ∧ s.I.length = 3 ∧ s.I.length ≠ 4) ∧ (∃ s : State, s.FLT = 0 ∧ s.I.length = 5 ∧ s.I.length ≠ 4) ∧
    (∃ s : State, s.FLT = 0 ∧ s.I = [0x60, 0x62, 0x63, 0x64] ∧
      (isAlpha 0x60 && isAlpha 0x62 && isAlpha 0x63 && isAlpha 0x64) = false) ∧
    (∃ s : State, s.FLT = 0 ∧ s.I = [0x72, 0x75, 0x53, 0x74] ∧
      (isAlpha 0x72 && isAlpha 0x75 && isAlpha 0x53 && isAlpha 0x74) = true) :=
  ⟨⟨withI [0x61, 0x62, 0x63], by decide⟩, ⟨withI hello, by decide⟩, ⟨withI [0x60, 0x62, 0x63, 0x64], by decide⟩,
   withI (ascii "ruSt"), by decide⟩

/-- `TcPredicatesAnswerInR` and `TcBytesAndTcText`. -/
theorem test_witness_T :
    (∃ (t : TypeCode) (s : State), s.FLT = 0 ∧ s.T = some t ∧ withinCap s.caps.stream (s.O.length + 4) = true) ∧
    (∃ (t : TypeCode) (s : State), s.FLT = 0 ∧ s.T = some t ∧ withinCap s.caps.stream (s.O.length + 4) = false) ∧
    (∃ s : State, s.FLT = 0 ∧ s.T = none) :=
  ⟨⟨ruSt, fullIn (some 5) 9 none, by decide⟩, ⟨ruSt, fullIn (some 4) 9 none, by decide⟩, State.reset, by decide⟩

theorem test_witness_TcEqComparesWithKType :
    (∃ (t : TypeCode) (k : Chunk) (s : State), s.FLT = 0 ∧ s.T = some t ∧ s.K = some k) ∧
    (∃ s : State, s.FLT = 0 ∧ s.T = none ∧ s.K ≠ none) ∧ (∃ s : State, s.FLT = 0 ∧ s.T ≠ none ∧ s.K = none) :=
  ⟨⟨ruSt, kHello, full, by decide⟩, ⟨{ full with T := none }, by decide⟩, { full with K := none }, by decide⟩

/-- `I` holds four bytes, so a payload capacity of 4 is just enough. -/
theorem test_witness_ChNewMakesAChunk :
    (∃ (t : TypeCode) (s : State), s.FLT = 0 ∧ s.T = some t ∧ s.I.length = s.caps.payload.val ∧ s.I.length ≤ s.caps.payload.val) ∧
    (∃ (t : TypeCode) (s : State), s.FLT = 0 ∧ s.T = some t ∧ s.caps.payload.val < s.I.length) ∧
    (∃ s : State, s.FLT = 0 ∧ s.T = none) :=
  ⟨⟨ruSt, fullIn none 4 none, by decide⟩, ⟨ruSt, fullIn none 3 none, by decide⟩, State.reset, by decide⟩

/-- There is a payload of any length. -/
theorem payload_of_length (n : Nat) : ∃ d : List Byte, d.length = n := ⟨List.replicate n 0, List.length_replicate⟩

/-- `ChLenChCrcAndChType`, with the longest payload that has a length too. -/
theorem test_witness_ChLenChCrcAndChType :
    (∃ (k : Chunk) (s : State), s.FLT = 0 ∧ s.K = some k ∧ k.data.length = lenMax ∧ k.data.length ≤ lenMax) ∧
    (∃ s : State, s.FLT = 0 ∧ s.K = none ∧ Instr.chLen ∈ [Instr.chLen, .chCrc, .chType]) := by
  obtain ⟨d, hd⟩ := payload_of_length lenMax
  exact ⟨⟨⟨ruSt, d⟩, { full with K := some ⟨ruSt, d⟩ }, rfl, rfl, hd, Nat.le_of_eq hd⟩, State.reset, by decide⟩

/-- `O` holds one byte and the payload five: capacity 6 is just enough. -/
theorem test_witness_ChDataAppendsThePayload :
    (∃ (k : Chunk) (s : State), s.FLT = 0 ∧ s.K = some k ∧ withinCap s.caps.stream (s.O.length + k.data.length) = true) ∧
    (∃ (k : Chunk) (s : State), s.FLT = 0 ∧ s.K = some k ∧ withinCap s.caps.stream (s.O.length + k.data.length) = false) ∧
    (∃ s : State, s.FLT = 0 ∧ s.K = none) :=
  ⟨⟨kHello, fullIn (some 6) 9 none, by decide⟩, ⟨kHello, fullIn (some 5) 9 none, by decide⟩, State.reset, by decide⟩

theorem test_witness_ChTextAppendsUtf8Only :
    (∃ (k : Chunk) (s : State), s.FLT = 0 ∧ s.K = some k ∧ utf8Valid k.data = true ∧
      withinCap s.caps.stream (s.O.length + k.data.length) = true) ∧
    (∃ (k : Chunk) (s : State), s.FLT = 0 ∧ s.K = some k ∧ utf8Valid k.data = false) ∧
    (∃ (k : Chunk) (s : State), s.FLT = 0 ∧ s.K = some k ∧ utf8Valid k.data = true ∧
      withinCap s.caps.stream (s.O.length + k.data.length) = false) ∧
    (∃ s : State, s.FLT = 0 ∧ s.K = none) :=
  ⟨⟨kHello, fullIn (some 6) 9 none, by decide⟩, ⟨⟨ruSt, [0xC2]⟩, { full with K := some ⟨ruSt, [0xC2]⟩ }, by decide⟩,
   ⟨kHello, fullIn (some 5) 9 none, by decide⟩, State.reset, by decide⟩

theorem test_witness_ChSerAppendsTheRecord :
    (∃ (k : Chunk) (s : State), s.FLT = 0 ∧ s.K = some k ∧ k.data.length ≤ lenMax ∧
      withinCap s.caps.stream (s.O.length + (12 + k.data.length)) = true) ∧
    (∃ (k : Chunk) (s : State), s.FLT = 0 ∧ s.K = some k ∧ k.data.length ≤ lenMax ∧
      withinCap s.caps.stream (s.O.length + (12 + k.data.length)) = false) ∧
    (∃ s : State, s.FLT = 0 ∧ s.K = none) :=
  ⟨⟨kHello, fullIn (some 18) 9 none, by decide⟩, ⟨kHello, fullIn (some 17) 9 none, by decide⟩, State.reset, by decide⟩

/-- The record of the empty `IEND` chunk, and what is changed in it for each later check. -/
theorem test_witness_ChParseMakesFourChecksInOrder :
    (∃ s : State, s.FLT = 0 ∧ s.I.length = 11 ∧ s.I.length < 12) ∧
    (∃ (s : State) (len sum : U32) (t : TypeCode) (d : List Byte), s.FLT = 0 ∧
      s.I = be32enc len ++ t.bytes ++ d ++ be32enc sum ∧ d.length ≠ len.toNat) ∧
    (∃ (s : State) (len sum : U32) (t : TypeCode) (d : List Byte), s.FLT = 0 ∧
      s.I = be32enc len ++ t.bytes ++ d ++ be32enc sum ∧ d.length = len.toNat ∧ t.isAlpha = false) ∧
    (∃ (s : State) (len sum : U32) (t : TypeCode) (d : List Byte), s.FLT = 0 ∧
      s.I = be32enc len ++ t.bytes ++ d ++ be32enc sum ∧ d.length = len.toNat ∧ t.isAlpha = true ∧
      crc32 (t.bytes ++ d) ≠ sum) ∧
    (∃ (s : State) (len sum : U32) (t : TypeCode) (d : List Byte), s.FLT = 0 ∧
      s.I = be32enc len ++ t.bytes ++ d ++ be32enc sum ∧ d.length = len.toNat ∧ t.isAlpha = true ∧
      crc32 (t.bytes ++ d) = sum ∧ s.caps.payload.val < d.length) ∧
    (∃ (s : State) (len sum : U32) (t : TypeCode) (d : List Byte), s.FLT = 0 ∧
      s.I = be32enc len ++ t.bytes ++ d ++ be32enc sum ∧ d.length = len.toNat ∧ t.isAlpha = true ∧
      crc32 (t.bytes ++ d) = sum ∧ d.length ≤ s.caps.payload.val) :=
  ⟨⟨withI (recIend.take 11), by decide⟩,
   ⟨withI ([0, 0, 0, 1] ++ recIend.drop 4), 1, 0xAE426082, iend, [], by decide⟩,
   ⟨withI [0, 0, 0, 0, 0x40, 0x45, 0x4E, 0x44, 0, 0, 0, 0], 0, 0, ⟨0x40, 0x45, 0x4E, 0x44⟩, [], by decide⟩,
   ⟨withI (recIend.take 11 ++ [0x83]), 0, 0xAE426083, iend, [], by decide +kernel⟩,
   ⟨{ fullIn none 4 none with I := recHello }, 5, 0xAE508D6F, ruSt, hello, by decide +kernel⟩,
   ⟨{ fullIn none 5 none with I := recHello }, 5, 0xAE508D6F, ruSt, hello, by decide +kernel⟩⟩

/-- The shortest payload without a u32 length. -/
theorem test_witness_OverlongPayloadIsRefused :
    (∃ (k : Chunk) (s : State), s.FLT = 0 ∧ s.K = some k ∧ lenMax < k.data.length) ∧
    (∃ (q : List Chunk) (k : Chunk) (s : State), s.FLT = 0 ∧ s.P = some q ∧ k ∈ q ∧ lenMax < k.data.length) := by
  obtain ⟨d, hd⟩ := payload_of_length (lenMax + 1)
  have h : lenMax < d.length := hd ▸ Nat.lt_succ_self _
  exact ⟨⟨⟨ruSt, d⟩, { full with K := some ⟨ruSt, d⟩ }, rfl, rfl, h⟩,
    ⟨[⟨ruSt, d⟩], ⟨ruSt, d⟩, { full with P := some [⟨ruSt, d⟩] }, rfl, rfl, List.mem_singleton.2 rfl, h⟩⟩

theorem test_witness_ChunkParseAndSerializeAgree : kIend.type.isAlpha = true ∧ chunkSerialize kIend = some recIend := by
  decide +kernel

/-- A record, and a bit in each field at either end: `q` is what follows the changed byte. -/
theorem test_witness_SingleBitFlipOfARecordIsRejected :
    kHello.type.isAlpha = true ∧ chunkSerialize kHello = some recHello ∧
    ([0, 3, 4, 7, 8, 16].all fun n => recHello == recHello.take n ++ (recHello.getD n 0) :: recHello.drop (n + 1)) = true ∧
    isAlpha (0x72 ^^^ BitVec.twoPow 8 7) = false ∧ isAlpha (0x72 ^^^ BitVec.twoPow 8 5) = true ∧
    isAlpha 0x41 = true ∧ isAlpha 0x7A = true := by decide +kernel

theorem test_witness_Utf8Valid : utf8Valid [0xF4, 0x8F, 0xBF, 0xBF, 0x61] = true ∧ utf8Valid [0xED, 0xA0, 0x80] = false := by decide

theorem test_witness_CtParseReplacesTheContainer :
    (∃ s : State, s.FLT = 0 ∧ s.I.length = 7) ∧
    (∃ s : State, s.FLT = 0 ∧ s.I.take 8 ≠ [0x89, 0x50, 0x4E, 0x47, 0x0D, 0x0A, 0x1A, 0x0A]) ∧
    (∃ s : State, s.FLT = 0 ∧ (containerParse s.I matches .error .truncated) = true) ∧
    (∃ (s : State) (q : List Chunk), s.FLT = 0 ∧ containerParse s.I = .ok q ∧ withinCap s.caps.chunks q.length = true ∧
      ∀ c ∈ q, c.data.length ≤ s.caps.payload.val) ∧
    (∃ s : State, s.FLT = 0 ∧ (containerParse s.I matches .ok [_]) = true ∧ withinCap s.caps.chunks 1 = false) ∧
    (∃ s : State, s.FLT = 0 ∧ (containerParse s.I matches .ok [⟨_, [_, _, _, _, _]⟩]) = true ∧ s.caps.payload.val < 5) :=
  ⟨⟨withI (sig.take 7), by decide⟩, ⟨withI [0x88, 0x50, 0x4E, 0x47, 0x0D, 0x0A, 0x1A, 0x0A], by decide⟩,
   ⟨withI (sig ++ [0]), by decide⟩, ⟨withI sig, [], rfl, rfl, rfl, by decide⟩,
   ⟨{ fullIn none 9 (some 0) with I := sig ++ recIend }, by decide +kernel⟩,
   ⟨{ fullIn none 4 none with I := sig ++ recHello }, by decide +kernel⟩⟩

/-- `ContainerParseGoesRecordByRecord`: 1 and 3 bytes, a record one byte short, a bad record, a good one. -/
theorem test_witness_ContainerParseGoesRecordByRecord :
    (0 < [(0 : Byte)].length ∧ [(0 : Byte), 0, 0].length < 4) ∧
    ((be32enc 0 ++ (recIend.take 11).drop 4).length < 12 + (0 : U32).toNat) ∧
    ((be32enc 0 ++ recIend.drop 4).length = 12 + (0 : U32).toNat ∧
      (chunkParse (be32enc 0 ++ recIend.drop 4) matches .ok _) = true) ∧
    ((be32enc 0 ++ ((recIend.take 11).drop 4 ++ [0x83])).length = 12 + (0 : U32).toNat ∧
      (chunkParse (be32enc 0 ++ ((recIend.take 11).drop 4 ++ [0x83])) matches .error .checksumMismatch) = true) := by
  decide +kernel

/-- `CtSerAppendsTheStream` and `SerializedSizes`: the stream of `kIend` is 20 bytes and `O` holds one. -/
theorem test_witness_CtSerAppendsTheStream :
    (∃ (q : List Chunk) (s : State), s.FLT = 0 ∧ s.P = some q ∧ (∀ c ∈ q, c.data.length ≤ lenMax) ∧
      withinCap s.caps.stream (s.O.length + (sig ++ recIend).length) = true) ∧
    (∃ (q : List Chunk) (s : State), s.FLT = 0 ∧ s.P = some q ∧ (∀ c ∈ q, c.data.length ≤ lenMax) ∧
      withinCap s.caps.stream (s.O.length + (sig ++ recIend).length) = false) ∧
    (∃ s : State, s.FLT = 0 ∧ s.P = none) ∧
    (chunkSerialize kIend = some recIend ∧ containerSerialize [kIend] = some (sig ++ recIend)) :=
  ⟨⟨[kIend], { fullIn (some 21) 9 none with P := some [kIend] }, by decide⟩,
   ⟨[kIend], { fullIn (some 20) 9 none with P := some [kIend] }, by decide⟩, ⟨State.reset, by decide⟩, by decide +kernel⟩

theorem test_witness_CtAppendAddsAtTheEnd :
    (∃ (q : List Chunk) (k : Chunk) (s : State), s.FLT = 0 ∧ s.P = some q ∧ s.K = some k ∧ s.caps.chunks = some (q.length + 1) ∧
      s.caps.chunks ≠ some q.length) ∧
    (∃ (q : List Chunk) (k : Chunk) (s : State), s.FLT = 0 ∧ s.P = some q ∧ s.K = some k ∧ s.caps.chunks = some q.length) ∧
    (∃ s : State, s.FLT = 0 ∧ s.P = none ∧ s.K ≠ none) ∧ (∃ s : State, s.FLT = 0 ∧ s.P ≠ none ∧ s.K = none) :=
  ⟨⟨[kHello, kText], kHello, fullIn none 9 (some 3), by decide⟩, ⟨[kHello, kText], kHello, fullIn none 9 (some 2), by decide⟩,
   ⟨{ full with P := none }, by decide⟩, { full with K := none }, by decide⟩

/-- `CtFindCopiesTheFirstMatch` and `CtRemoveMovesTheFirstMatch`: a match behind another chunk, none, and no `P`. -/
theorem test_witness_CtFind :
    (∃ (pre post : List Chunk) (c : Chunk) (s : State), s.FLT = 0 ∧ s.P = some (pre ++ c :: post) ∧ c.type.bytes = s.I ∧
      ∀ d ∈ pre, d.type.bytes ≠ s.I) ∧
    (∃ (q : List Chunk) (s : State), s.FLT = 0 ∧ s.P = some q ∧ q ≠ [] ∧ ∀ d ∈ q, d.type.bytes ≠ s.I) ∧
    (∃ s : State, s.FLT = 0 ∧ s.P = none) :=
  ⟨⟨[kHello], [], kText, full, by decide⟩, ⟨[kHello, kText], withI [], by decide⟩, State.reset, by decide⟩

theorem test_witness_RemoveTakesTheLeastIndexOnly :
    containerRemove [kHello, kText, kHello] (ascii "teXt") = some (kText, [kHello, kHello]) ∧
    (ascii "teX").length ≠ 4 ∧ (ascii "teXtt").length ≠ 4 := by decide

theorem test_witness_AppendFindRemoveFind :
    (∃ (q : List Chunk) (k : Chunk) (s : State), s.FLT = 0 ∧ s.P = some q ∧ s.K = some k ∧ s.I = k.type.bytes ∧
      (∀ d ∈ q, d.type.bytes ≠ k.type.bytes) ∧ s.caps.chunks ≠ some q.length) ∧
    containerFind [kHello] kHello.type.bytes = some kHello :=
  ⟨⟨[kHello], kText, { full with P := some [kHello], K := some kText }, by decide⟩, by decide⟩

theorem test_witness_DuplicateTypesAreTakenInOrder :
    ∃ (q : List Chunk) (c1 c2 : Chunk) (s : State), s.FLT = 0 ∧
      s.P = some (containerAppend (containerAppend q c1) c2) ∧ c1 ≠ c2 ∧
      c1.type.bytes = s.I ∧ c2.type.bytes = s.I ∧ ∀ d ∈ q, d.type.bytes ≠ s.I :=
  ⟨[kHello], kText, ⟨teXt, [0x63]⟩, { full with P := some [kHello, kText, ⟨teXt, [0x63]⟩] }, by decide⟩

theorem test_witness_RoundTripOfAParsedStream :
    ∃ s t : State, s.FLT = 0 ∧ exec .ctParse s = .next t ∧ t.S = 0x00 ∧ withinCap s.caps.stream s.I.length = true :=
  ⟨{ fullIn (some 8) 9 none with I := sig }, { fullIn (some 8) 9 none with I := sig, P := some [], S := 0x00 }, rfl, rfl, rfl, rfl⟩

/-- One state of each kind of end, for `EveryCommandEndsInOneOfThreeWays`. -/
theorem test_witness_EveryCommandEndsInOneOfThreeWays :
    full.FLT = 0 ∧ ran (exec .ctRemove full) { full with K := some kText, P := some [kHello], S := 0x00 } = true ∧
    ran (exec .ctRemove (withI [])) { withI [] with S := 0x08 } = true ∧
    ran (exec .ctRemove State.reset) { State.reset with S := 0x81, FLT := 0b010 } = true := by decide

/-- Two different states that agree in what `CRC.FIN` reads, and one state whose payload is refused. -/
theorem test_witness_CommandsDependOnWhatTheyReadOnly :
    (∃ s s' t : State, s ≠ s' ∧ s.FLT = 0 ∧ s'.FLT = 0 ∧ s.caps = s'.caps ∧
      (∀ e ∈ readsOf .crcFin, sameElem s s' e) ∧ exec .crcFin s = .next t) ∧
    (∃ s : State, s.FLT = 0 ∧ exec .chLen s = .refused .payloadTooLong) := by
  obtain ⟨d, hd⟩ := payload_of_length (lenMax + 1)
  refine ⟨⟨full, withI [], { full with R := 0xEDCBA987, S := 0x00 }, by decide, rfl, rfl, rfl, ?_, rfl⟩,
    { full with K := some ⟨ruSt, d⟩ }, rfl, ?_⟩
  · intro e he
    simp only [readsOf, List.mem_singleton] at he
    subst he
    rfl
  · have h : chunkLength ⟨ruSt, d⟩ = none := if_neg (by rw [hd]; exact Nat.not_succ_le_self _)
    simp only [exec, execChLen, envelope, needK, h]
    rfl

/-- `EveryStepKeepsTheInvariant` and `EveryStepFromTheInvariantAnswers`: a state that meets the invariant, with a
command to come, and one after a fault. -/
theorem test_witness_invariant :
    (∃ s t : State, s.wf = true ∧ s.pending ≠ [] ∧ step s = .next t) ∧ (∃ s : State, s.wf = true ∧ s.FLT ≠ 0) :=
  ⟨⟨{ fullIn (some 4) 5 (some 2) with pending := [.command 0x5500] },
    { fullIn (some 4) 5 (some 2) with K := some kText, P := some [kHello], S := 0x00 }, by decide, by decide, rfl⟩,
   { full with S := 0x82, FLT := 0b100 }, by decide⟩

end Sys2Proof.Tests
end

/-! SUPPORT and PROOFS. The state's invariant (10_state.md). `State.wf` is cut into its part about the stores and its
part about `S` and `FLT`; a command's body has to keep the first and the envelope's three ends give the second. -/

namespace Sys2Proof.Machine

/-! ### The faulted block (R36) -/

theorem exec_of_faulted (i : Instr) {s : State} (h : s.FLT ≠ 0) : exec i s = .next s := by
  obtain ⟨body, hbody⟩ := exec_eq_envelope i
  exact (hbody s).trans (envelope_of_faulted h)

theorem execReserved_of_faulted {s : State} (h : s.FLT ≠ 0) : execReserved s = .next s :=
  envelope_of_faulted h

/-! ### The parts of the invariant -/

/-- The invariant's part about the stores: within the capacities (R20), and type codes are letters (R25, R27, R29). -/
structure State.StoresWf (s : State) : Prop where
  memory : Memory.wf s = true
  lettersT : ∀ t, s.T = some t → t.isAlpha = true
  lettersK : ∀ k, s.K = some k → k.type.isAlpha = true
  lettersP : ∀ q, s.P = some q → ∀ c ∈ q, c.type.isAlpha = true

theorem State.wf_iff {s : State} : s.wf = true ↔ s.StoresWf ∧ statusWf s.S s.FLT = true := by
  simp only [State.wf, Chunk.wf, Bool.and_eq_true, Option.all_eq_true, List.all_eq_true]
  constructor
  · rintro ⟨⟨⟨⟨⟨hT, hK⟩, hP⟩, hI⟩, hO⟩, hS⟩
    have hmem : Memory.wf s = true :=
      memory_wf_iff.2 ⟨hI, hO, fun k hk => (hK k hk).2, fun q hq => ⟨(hP q hq).1, fun c hc => ((hP q hq).2 c hc).2⟩⟩
    exact ⟨⟨hmem, hT, fun k hk => (hK k hk).1, fun q hq c hc => ((hP q hq).2 c hc).1⟩, hS⟩
  · rintro ⟨⟨hmem, hT, hK, hP⟩, hS⟩
    obtain ⟨hI, hO, hKfit, hPfit⟩ := memory_wf_iff.1 hmem
    exact ⟨⟨⟨⟨⟨hT, fun k hk => ⟨hK k hk, hKfit k hk⟩⟩,
      fun q hq => ⟨(hPfit q hq).1, fun c hc => ⟨hP q hq c hc, (hPfit q hq).2 c hc⟩⟩⟩, hI⟩, hO⟩, hS⟩

/-- R46: the invariant holds after reset. -/
theorem State.resetWith_wf (caps : Capacities) (p : List HostEvent) : (State.resetWith caps p).wf = true :=
  State.wf_iff.2 ⟨⟨resetWith_memory_wf caps p, nofun, nofun, nofun⟩, rfl⟩

/-! ### `S` and `FLT` agree after each end of a command (R300) -/

theorem statusWf_okCode : statusWf okCode 0 = true := rfl

theorem statusWf_failCode (k : FailKind) : statusWf (failCode k) 0 = true := by cases k <;> rfl

theorem statusWf_faultCode (k : HwFault) : statusWf (faultCode k) (setFault k 0) = true := by cases k <;> rfl

/-- What the invariant asks of the end of a body run at `s`: what it commits keeps the stores' part and leaves `FLT`. -/
def State.KeepsStores (s : State) : Ending → Prop
  | .done t => t.StoresWf ∧ t.FLT = s.FLT
  | .raise _ | .fault _ | .refuse _ => True

/-- `S` and `FLT` are of no concern to the stores. -/
theorem State.StoresWf.write_status {s : State} (hs : s.StoresWf) (st : BitVec 8) (flt : BitVec 3) :
    State.StoresWf { s with S := st, FLT := flt } := by
  obtain ⟨hmem, hT, hK, hP⟩ := hs
  exact ⟨hmem, hT, hK, hP⟩

theorem settle_keeps_wf {s t : State} {e : Ending} (hs : s.StoresWf) (hflt : s.FLT = 0) (he : s.KeepsStores e)
    (h : settle s e = .next t) : t.wf = true := by
  obtain ⟨s', rfl, rfl⟩ | ⟨k, -, rfl⟩ | ⟨k, -, rfl⟩ := settle_eq_next h
  · obtain ⟨hs', hflt'⟩ := he
    exact State.wf_iff.2 ⟨hs'.write_status _ _, by simpa [hflt', hflt] using statusWf_okCode⟩
  · exact State.wf_iff.2 ⟨hs.write_status _ _, by simpa [hflt] using statusWf_failCode k⟩
  · exact State.wf_iff.2 ⟨hs.write_status _ _, by simpa [hflt] using statusWf_faultCode k⟩

/-! ### Where type codes and chunks come from -/

/-- R191: a constructed type code is letters. -/
theorem tcConstruct_isAlpha {t u : TypeCode} (h : tcConstruct t = .ok u) : u.isAlpha = true := by
  unfold tcConstruct at h
  split at h
  next ht => cases h; exact ht
  next => cases h

theorem tcConstructFromText_isAlpha {text : List Byte} {t : TypeCode} (h : tcConstructFromText text = .ok t) :
    t.isAlpha = true := by
  unfold tcConstructFromText at h
  split at h
  next => cases h
  next => exact tcConstruct_isAlpha h

/-- R227: what the checks (a) to (d) have found where a chunk is parsed. -/
theorem chunkParse_eq_ok {s : List Byte} {c : Chunk} (h : chunkParse s = .ok c) :
    ∃ len : U32, fieldAt s 0 = some len ∧ s.length = 12 + len.toNat ∧ TypeCode.ofBytes (memRead s 4 4) = some c.type ∧
      c.type.isAlpha = true ∧ c.data = memRead s 8 len.toNat ∧ fieldAt s (8 + len.toNat) = some (chunkChecksum c) := by
  unfold chunkParse at h
  split at h
  next => cases h
  next hlong =>
    split at h
    next len t hlen ht =>
      split at h
      next => cases h
      next hsize =>
        split at h
        next => cases h
        next halpha =>
          split at h
          next x hx =>
            split at h
            next => cases h
            next hsum =>
              cases h
              exact ⟨len, hlen, by omega, ht, by simpa using halpha, rfl, by rw [hx, not_not.1 hsum]⟩
          next => cases h
    next => cases h

/-- R262: one turn of the loop that does not fail has parsed one record, and the loop goes on after it. -/
theorem parseRecords_succ_eq_ok {n : Nat} {b : Byte} {s : List Byte} {q : List Chunk}
    (h : parseRecords (n + 1) (b :: s) = .ok q) :
    ∃ (len : U32) (c : Chunk) (q' : List Chunk), fieldAt (b :: s) 0 = some len ∧ 12 + len.toNat ≤ (b :: s).length ∧
      chunkParse (memRead (b :: s) 0 (12 + len.toNat)) = .ok c ∧
      parseRecords n ((b :: s).drop (12 + len.toNat)) = .ok q' ∧ q = c :: q' := by
  unfold parseRecords at h
  split at h
  next => cases h
  next len hlen =>
    split at h
    next => cases h
    next hlong =>
      split at h
      next => cases h
      next c hc =>
        split at h
        next => cases h
        next q' hq' => cases h; exact ⟨len, c, q', hlen, not_lt.1 hlong, hc, hq', rfl⟩

theorem parseRecords_isAlpha {n : Nat} {s : List Byte} {q : List Chunk} (h : parseRecords n s = .ok q) :
    ∀ c ∈ q, c.type.isAlpha = true := by
  induction n generalizing s q with
  | zero => cases s <;> cases h; nofun
  | succ n ih =>
    cases s with
    | nil => cases h; nofun
    | cons b s =>
      obtain ⟨len, c, q', -, -, hc, hq', rfl⟩ := parseRecords_succ_eq_ok h
      obtain ⟨-, -, -, -, halpha, -, -⟩ := chunkParse_eq_ok hc
      exact List.forall_mem_cons.2 ⟨halpha, ih hq'⟩

theorem containerParse_isAlpha {s : List Byte} {q : List Chunk} (h : containerParse s = .ok q) :
    ∀ c ∈ q, c.type.isAlpha = true := by
  unfold containerParse at h
  split at h
  next => cases h
  next => exact parseRecords_isAlpha h

/-- R264: what find answers is a chunk of the container. -/
theorem containerFind_mem {q : List Chunk} {code : List Byte} {c : Chunk} (h : containerFind q code = some c) :
    c ∈ q := by
  induction q with
  | nil => cases h
  | cons d q ih =>
    unfold containerFind at h
    split at h
    next => cases h; exact List.mem_cons_self ..
    next => exact List.mem_cons_of_mem _ (ih h)

/-! ### The operations keep the stores' part -/

section
variable {s : State}

/-- A write to `R`, `C` or `F` is of no concern to the stores. -/
theorem State.StoresWf.write_scalars (hs : s.StoresWf) (r c : U32) (f : Bool) :
    State.StoresWf { s with R := r, C := c, F := f } := by
  obtain ⟨hmem, hT, hK, hP⟩ := hs
  exact ⟨hmem, hT, hK, hP⟩

/-- `T <- t` (R26). -/
theorem State.StoresWf.write_T (hs : s.StoresWf) {t : TypeCode} (ht : t.isAlpha = true) :
    State.StoresWf { s with T := some t } := by
  obtain ⟨hmem, -, hK, hP⟩ := hs
  exact ⟨hmem, fun u hu => Option.some.inj hu ▸ ht, hK, hP⟩

/-- `K <- c` (R28). -/
theorem State.StoresWf.write_K (hs : s.StoresWf) {c : Chunk} (hc : c.type.isAlpha = true)
    (hfit : payloadFits s.caps c.data = true) : State.StoresWf { s with K := some c } := by
  obtain ⟨hmem, hT, -, hP⟩ := hs
  exact ⟨putK_keeps_wf hmem (if_pos hfit), hT, fun k hk => Option.some.inj hk ▸ hc, hP⟩

/-- `P <- q` (R30). -/
theorem State.StoresWf.write_P (hs : s.StoresWf) {q : List Chunk} (hq : ∀ c ∈ q, c.type.isAlpha = true)
    (hmem : Memory.wf { s with P := some q } = true) : State.StoresWf { s with P := some q } := by
  obtain ⟨-, hT, hK, -⟩ := hs
  exact ⟨hmem, hT, hK, fun q' hq' => Option.some.inj hq' ▸ hq⟩

/-- `I` and `O` hold no type code, so their capacity is all there is to them. -/
theorem State.StoresWf.write_buffers (hs : s.StoresWf) {i o : List Byte}
    (hmem : Memory.wf { s with I := i, O := o } = true) : State.StoresWf { s with I := i, O := o } := by
  obtain ⟨-, hT, hK, hP⟩ := hs
  exact ⟨hmem, hT, hK, hP⟩

/-- A chunk of the container store is letters and fits. -/
theorem State.StoresWf.mem_P (hs : s.StoresWf) {q : List Chunk} (hq : s.P = some q) {c : Chunk} (hc : c ∈ q) :
    c.type.isAlpha = true ∧ payloadFits s.caps c.data = true := by
  obtain ⟨-, -, -, hfit⟩ := memory_wf_iff.1 hs.memory
  exact ⟨hs.lettersP q hq c hc, (hfit q hq).2 c hc⟩

theorem putR_keepsStores (hs : s.StoresWf) (v : U32) : s.KeepsStores (putR s v) :=
  ⟨hs.write_scalars v s.C s.F, rfl⟩

theorem appendO_keepsStores (hs : s.StoresWf) (v : List Byte) : s.KeepsStores (appendO s v) := by
  rcases appendO_cases s v with ⟨-, hdone⟩ | ⟨-, hfault⟩
  · rw [hdone]
    exact ⟨hs.write_buffers (appendO_keeps_wf hs.memory hdone), rfl⟩
  · rw [hfault]
    trivial

theorem putK_keepsStores (hs : s.StoresWf) {c : Chunk} (hc : c.type.isAlpha = true) : s.KeepsStores (putK s c) := by
  rcases putK_cases s c with ⟨hfit, hdone⟩ | ⟨-, hfault⟩
  · rw [hdone]
    exact ⟨hs.write_K hc hfit, rfl⟩
  · rw [hfault]
    trivial

theorem putT_keepsStores (hs : s.StoresWf) {r : Except FailKind TypeCode} (hr : ∀ t, r = .ok t → t.isAlpha = true) :
    s.KeepsStores (putT s r) := by
  cases r with
  | ok t => exact ⟨hs.write_T (hr t rfl), rfl⟩
  | error k => trivial

/-! An empty operand register is a fault (R312), so a body has to be looked at where the register holds a value. -/

theorem needT_keepsStores {f : TypeCode → Ending} (hf : ∀ t, s.T = some t → s.KeepsStores (f t)) :
    s.KeepsStores (needT s f) := by
  cases hT : s.T with
  | none => rw [needT_of_none hT]; trivial
  | some t => rw [needT_of_some hT]; exact hf t hT

theorem needK_keepsStores {f : Chunk → Ending} (hf : ∀ k, s.K = some k → s.KeepsStores (f k)) :
    s.KeepsStores (needK s f) := by
  cases hK : s.K with
  | none => rw [needK_of_none hK]; trivial
  | some k => rw [needK_of_some hK]; exact hf k hK

theorem needP_keepsStores {f : List Chunk → Ending} (hf : ∀ q, s.P = some q → s.KeepsStores (f q)) :
    s.KeepsStores (needP s f) := by
  cases hP : s.P with
  | none => rw [needP_of_none hP]; trivial
  | some q => rw [needP_of_some hP]; exact hf q hP

theorem predicateOfT_keepsStores (hs : s.StoresWf) (p : TypeCode → Bool) : s.KeepsStores (predicateOfT p s) :=
  needT_keepsStores fun _ _ => putR_keepsStores hs _

/-- `CT.PARSE`'s write (R271). -/
theorem parseP_keepsStores (hs : s.StoresWf) {q : List Chunk} (hq : containerParse s.I = .ok q) :
    s.KeepsStores (if containerFits s.caps q then .done { s with P := some q } else .fault .capacity) := by
  split
  next hfit => exact ⟨hs.write_P (containerParse_isAlpha hq) (putP_keeps_wf hs.memory hfit), rfl⟩
  next => trivial

/-- `CT.APPEND`'s write (R273). -/
theorem appendP_keepsStores (hs : s.StoresWf) {q : List Chunk} {k : Chunk} (hq : s.P = some q) (hk : s.K = some k) :
    s.KeepsStores (if atCap s.caps.chunks q.length then .fault .capacity
      else .done { s with P := some (containerAppend q k) }) := by
  split
  next => trivial
  next hroom =>
    have hletters : ∀ c ∈ containerAppend q k, c.type.isAlpha = true :=
      List.forall_mem_append.2 ⟨hs.lettersP q hq, List.forall_mem_singleton.2 (hs.lettersK k hk)⟩
    exact ⟨hs.write_P hletters (appendP_keeps_wf hs.memory hq hk (Bool.eq_false_of_not_eq_true hroom)), rfl⟩

/-- `CT.REMOVE`'s writes (R275). -/
theorem removeP_keepsStores (hs : s.StoresWf) {q rest : List Chunk} {c : Chunk} (hq : s.P = some q)
    (hr : containerRemove q s.I = some (c, rest)) :
    s.KeepsStores (.done { s with K := some c, P := some rest }) := by
  have hletters : ∀ d ∈ c :: rest, d.type.isAlpha = true :=
    fun d hd => hs.lettersP q hq d ((containerRemove_perm hr).mem_iff.2 hd)
  obtain ⟨hc, hrest⟩ := List.forall_mem_cons.1 hletters
  exact ⟨⟨removeP_keeps_wf hs.memory hq hr, hs.lettersT, fun k hk => Option.some.inj hk ▸ hc,
    fun q' hq' => Option.some.inj hq' ▸ hrest⟩, rfl⟩

/-- Every command's body keeps the stores' part of the invariant. -/
theorem exec_keepsStores (i : Instr) (hs : s.StoresWf) (hflt : s.FLT = 0) :
    ∃ e, exec i s = settle s e ∧ s.KeepsStores e := by
  cases i with
  | nop => exact ⟨_, exec_nop hflt, hs, rfl⟩
  | inClr => exact ⟨_, exec_inClr hflt, hs.write_buffers (clear_keeps_wf hs.memory).1, rfl⟩
  | inPush imm8 =>
    refine ⟨_, exec_inPush imm8 hflt, ?_⟩
    split
    next => trivial
    next hroom => exact ⟨hs.write_buffers (pushI_keeps_wf hs.memory (Bool.eq_false_of_not_eq_true hroom)), rfl⟩
  | outClr => exact ⟨_, exec_outClr hflt, hs.write_buffers (clear_keeps_wf hs.memory).2, rfl⟩
  | movIo => exact ⟨_, exec_movIo hflt, hs.write_buffers (copyO_keeps_wf hs.memory), rfl⟩
  | beEnc => exact ⟨_, exec_beEnc hflt, appendO_keepsStores hs _⟩
  | beDec imm8 =>
    refine ⟨_, exec_beDec imm8 hflt, ?_⟩
    split
    next => trivial
    next => exact putR_keepsStores hs _
  | crcInit => exact ⟨_, exec_crcInit hflt, hs.write_scalars s.R _ s.F, rfl⟩
  | crcUpd imm8 => exact ⟨_, exec_crcUpd imm8 hflt, hs.write_scalars s.R _ s.F, rfl⟩
  | crcUpdi => exact ⟨_, exec_crcUpdi hflt, hs.write_scalars s.R _ s.F, rfl⟩
  | crcFin => exact ⟨_, exec_crcFin hflt, putR_keepsStores hs _⟩
  | tcNew => exact ⟨_, exec_tcNew hflt, putT_keepsStores hs fun _ => tcConstruct_isAlpha⟩
  | tcNewt => exact ⟨_, exec_tcNewt hflt, putT_keepsStores hs fun _ => tcConstructFromText_isAlpha⟩
  | tcValid => exact ⟨_, exec_tcValid hflt, predicateOfT_keepsStores hs _⟩
  | tcCrit => exact ⟨_, exec_tcCrit hflt, predicateOfT_keepsStores hs _⟩
  | tcPub => exact ⟨_, exec_tcPub hflt, predicateOfT_keepsStores hs _⟩
  | tcRsv => exact ⟨_, exec_tcRsv hflt, predicateOfT_keepsStores hs _⟩
  | tcSafe => exact ⟨_, exec_tcSafe hflt, predicateOfT_keepsStores hs _⟩
  | tcBytes => exact ⟨_, exec_tcBytes hflt, needT_keepsStores fun _ _ => putR_keepsStores hs _⟩
  | tcText => exact ⟨_, exec_tcText hflt, needT_keepsStores fun _ _ => appendO_keepsStores hs _⟩
  | tcEq =>
    exact ⟨_, exec_tcEq hflt, needT_keepsStores fun _ _ => needK_keepsStores fun _ _ => putR_keepsStores hs _⟩
  | chNew => exact ⟨_, exec_chNew hflt, needT_keepsStores fun t ht => putK_keepsStores hs (hs.lettersT t ht)⟩
  | chLen =>
    refine ⟨_, exec_chLen hflt, needK_keepsStores fun k _ => ?_⟩
    split
    next => trivial
    next => exact putR_keepsStores hs _
  | chCrc => exact ⟨_, exec_chCrc hflt, needK_keepsStores fun _ _ => putR_keepsStores hs _⟩
  | chType => exact ⟨_, exec_chType hflt, needK_keepsStores fun k hk => ⟨hs.write_T (hs.lettersK k hk), rfl⟩⟩
  | chData => exact ⟨_, exec_chData hflt, needK_keepsStores fun _ _ => appendO_keepsStores hs _⟩
  | chText =>
    refine ⟨_, exec_chText hflt, needK_keepsStores fun k _ => ?_⟩
    split
    next => trivial
    next => exact appendO_keepsStores hs _
  | chSer =>
    refine ⟨_, exec_chSer hflt, needK_keepsStores fun k _ => ?_⟩
    split
    next => trivial
    next => exact appendO_keepsStores hs _
  | chParse =>
    refine ⟨_, exec_chParse hflt, ?_⟩
    split
    next => trivial
    next c hc =>
      obtain ⟨-, -, -, -, halpha, -, -⟩ := chunkParse_eq_ok hc
      exact putK_keepsStores hs halpha
  | ctNew =>
    have hfit : containerFits s.caps containerNew = true := by
      simp [containerFits, containerNew, withinCap_iff]
    exact ⟨_, exec_ctNew hflt, hs.write_P nofun (putP_keeps_wf hs.memory hfit), rfl⟩
  | ctParse =>
    refine ⟨_, exec_ctParse hflt, ?_⟩
    split
    next => trivial
    next q hq => exact parseP_keepsStores hs hq
  | ctSer =>
    refine ⟨_, exec_ctSer hflt, needP_keepsStores fun q _ => ?_⟩
    split
    next => trivial
    next => exact appendO_keepsStores hs _
  | ctAppend =>
    exact ⟨_, exec_ctAppend hflt, needP_keepsStores fun q hq => needK_keepsStores fun k hk =>
      appendP_keepsStores hs hq hk⟩
  | ctFind =>
    refine ⟨_, exec_ctFind hflt, needP_keepsStores fun q hq => ?_⟩
    split
    next => exact ⟨hs.write_scalars s.R s.C _, rfl⟩
    next c hc =>
      obtain ⟨halpha, hfit⟩ := hs.mem_P hq (containerFind_mem hc)
      exact ⟨(hs.write_K halpha hfit).write_scalars s.R s.C _, rfl⟩
  | ctRemove =>
    refine ⟨_, exec_ctRemove hflt, needP_keepsStores fun q hq => ?_⟩
    split
    next => trivial
    next c rest hr => exact removeP_keepsStores hs hq hr

end

/-! ### Every command and every step keeps the invariant -/

theorem exec_keeps_wf (i : Instr) {s t : State} (hs : s.wf = true) (h : exec i s = .next t) : t.wf = true := by
  by_cases hflt : s.FLT = 0
  · obtain ⟨hstores, -⟩ := State.wf_iff.1 hs
    obtain ⟨e, hexec, he⟩ := exec_keepsStores i hstores hflt
    exact settle_keeps_wf hstores hflt he (hexec ▸ h)
  · rw [exec_of_faulted i hflt] at h
    cases h
    exact hs

theorem execReserved_keeps_wf {s t : State} (hs : s.wf = true) (h : execReserved s = .next t) : t.wf = true := by
  by_cases hflt : s.FLT = 0
  · have hend : execReserved s = settle s (.fault .illegalCommand) := envelope_of_running hflt
    obtain ⟨hstores, -⟩ := State.wf_iff.1 hs
    exact settle_keeps_wf (e := .fault .illegalCommand) hstores hflt trivial (hend ▸ h)
  · rw [execReserved_of_faulted hflt] at h
    cases h
    exact hs

/-- The invariant says nothing of what the host has still presented. -/
theorem State.wf_of_pending {s : State} (rest : List HostEvent) (hs : s.wf = true) :
    State.wf { s with pending := rest } = true := hs

theorem step_keeps_wf {s t : State} (hs : s.wf = true) (h : step s = .next t) : t.wf = true := by
  obtain ⟨-, hstep⟩ | ⟨rest, -, hstep⟩ | ⟨w, rest, i, -, -, hstep⟩ | ⟨w, rest, e, -, -, hstep⟩ := step_cases s
  case inl => cases hstep.symm.trans h; exact hs
  case inr.inl => cases hstep.symm.trans h; exact State.resetWith_wf s.caps rest
  case inr.inr.inl => exact exec_keeps_wf i (State.wf_of_pending rest hs) (hstep.symm.trans h)
  case inr.inr.inr => exact execReserved_keeps_wf (State.wf_of_pending rest hs) (hstep.symm.trans h)

/-- R36: a word presented to a faulted block is taken from the host and changes nothing (log entry 3). -/
theorem step_of_faulted {s : State} {w : CommandWord} {rest : List HostEvent} (hp : s.pending = .command w :: rest)
    (hflt : s.FLT ≠ 0) : step s = .next { s with pending := rest } := by
  rw [step_of_command hp]
  cases decodeWord w with
  | ok i => exact exec_of_faulted i hflt
  | error e => exact execReserved_of_faulted hflt

/-! ### The obligations -/

/-- Settles O58: a step is idle, a reset, a command or a reserved word, and each keeps the invariant. -/
theorem everyStepKeepsTheInvariant : Obligations.EveryStepKeepsTheInvariant :=
  fun _ _ => step_keeps_wf

/-- Settles O1: the values are those `State.resetWith` writes out. -/
theorem resetLeavesTheSpecsValues : Obligations.ResetLeavesTheSpecsValues := by
  refine ⟨rfl, ?_⟩
  rintro s (rfl | ⟨caps, p, rfl⟩) <;> exact ⟨rfl, rfl, rfl, rfl, rfl, rfl, rfl, rfl, rfl, rfl⟩

/-- Settles O6: every command and every reserved word runs in the envelope, which tests `FLT` first. -/
theorem faultedBlockExecutesNothing : Obligations.FaultedBlockExecutesNothing :=
  ⟨fun i _ => exec_of_faulted i, fun _ _ _ => step_of_faulted⟩

/-- Settles O59: `State.reset` is one of the states `State.resetWith` gives. -/
theorem theInvariantHoldsAfterReset : Obligations.TheInvariantHoldsAfterReset :=
  ⟨State.resetWith_wf _ _, State.resetWith_wf⟩

end Sys2Proof.Machine

/-! SUPPORT and PROOFS. The command interface (20_memory.md section 6): a command presented by its own word is what
the next step runs. -/

namespace Sys2Proof

/-! ### A command's word decodes to the command -/

/-- R93: the two columns of the opcode map, read from the command, give the command back. -/
theorem decodeOp_opcodeOf_immOf (i : Instr) : decodeOp (opcodeOf i) (immOf i) = .ok i := by
  cases i <;> rfl

@[simp] theorem wordOp_encode (i : Instr) : wordOp (encode i) = opcodeOf i := Laws.wordOp_append _ _

@[simp] theorem wordImm_encode (i : Instr) : wordImm (encode i) = immOf i := Laws.wordImm_append _ _

@[simp] theorem decodeWord_encode (i : Instr) : decodeWord (encode i) = .ok i := by
  rw [decodeWord, wordOp_encode, wordImm_encode, decodeOp_opcodeOf_immOf]

/-- The sixteen bits of a word, given as a number, are the word. -/
@[simp] theorem commandWordOf_toNat (w : CommandWord) : commandWordOf 16 w.toNat = w := by
  rw [commandWordOf, Nat.mod_eq_of_lt w.isLt, BitVec.ofNat_toNat, BitVec.setWidth_eq]

namespace Machine

/-! ### The step on a presented word (R72) -/

theorem step_of_decoded {s : State} {w : CommandWord} {rest : List HostEvent} {i : Instr}
    (hp : s.pending = .command w :: rest) (hd : decodeWord w = .ok i) : step s = exec i { s with pending := rest } := by
  rw [step_of_command hp, hd]

theorem step_of_undecoded {s : State} {w : CommandWord} {rest : List HostEvent} {e : DecodeError}
    (hp : s.pending = .command w :: rest) (hd : decodeWord w = .error e) :
    step s = execReserved { s with pending := rest } := by
  rw [step_of_command hp, hd]

/-- A word of the table, put before what is pending, is the oldest event (log entry 1). -/
theorem State.withFetchWord_pending (s : State) (w : CommandWord) :
    (s.withFetchWord 16 w.toNat).pending = .command w :: s.pending := by
  rw [State.withFetchWord, State.presentFirst_pending, commandWordOf_toNat]

/-- Taking the presented word again leaves the state it was presented to. -/
theorem State.withFetchWord_taken (s : State) (nbits w : Nat) :
    { s.withFetchWord nbits w with pending := s.pending } = s := rfl

/-- R72: a command presented by its own word is the next one executed. -/
theorem step_withFetchWord_encode (s : State) (i : Instr) :
    step (s.withFetchWord 16 (encode i).toNat) = exec i s := by
  rw [step_of_decoded (s.withFetchWord_pending (encode i)) (decodeWord_encode i), State.withFetchWord_taken]

/-! ### The obligation -/

/-- Settles O4: the oldest event is taken and its word decoded, and a command's own word decodes to the command. -/
theorem stepRunsTheDecodedCommand : Obligations.StepRunsTheDecodedCommand :=
  ⟨fun _ _ _ _ => step_of_decoded, fun _ _ _ _ => step_of_undecoded, fun _ => step_of_nothing,
    step_withFetchWord_encode⟩

end Machine
end Sys2Proof

/-! SUPPORT and PROOFS. Encoding (30_encoding.md): the opcode map read backward from a word, listings, the
pseudo-instructions, the assembler's lines, and the sizes of what is serialised. -/

namespace Sys2Proof

/-! ### A word is its opcode byte above its immediate byte (R91) -/

theorem wordOp_append_wordImm (w : CommandWord) : wordOp w ++ wordImm w = w :=
  (BitVec.extractLsb'_append_extractLsb'_eq_extractLsb' rfl).trans BitVec.extractLsb'_eq_self

theorem eq_encode_iff {w : CommandWord} {i : Instr} :
    w = encode i ↔ wordOp w = opcodeOf i ∧ wordImm w = immOf i := by
  constructor
  · rintro rfl
    exact ⟨wordOp_encode i, wordImm_encode i⟩
  · rintro ⟨hop, himm⟩
    rw [← wordOp_append_wordImm w, hop, himm, encode]

/-! ### What the opcode map answers (R93 to R96) -/

theorem noImm_of_zero {imm : Byte} (i : Instr) (h : imm = 0) : noImm imm i = .ok i := if_pos h

theorem noImm_of_ne_zero {imm : Byte} (i : Instr) (h : imm ≠ 0) : noImm imm i = .error .reservedImmediate := if_neg h

theorem eq_ofNat_of_toNat {op : Byte} {n : Nat} (h : op.toNat = n) : op = BitVec.ofNat 8 n := by
  rw [← h, BitVec.ofNat_toNat, BitVec.setWidth_eq]

/-- What an opcode is in the map: reserved (R94), of a command with an immediate, or of one without (R95). -/
theorem decodeOp_cases (op imm : Byte) :
    (opReserved op = true ∧ decodeOp op imm = .error .reservedOpcode) ∨
    (∃ i, decodeOp op imm = .ok i ∧ opcodeOf i = op ∧ immOf i = imm ∧ opReserved op = false ∧ opTakesImm op = true) ∨
    (∃ i, decodeOp op imm = noImm imm i ∧ opcodeOf i = op ∧ immOf i = 0 ∧ opReserved op = false ∧
      opTakesImm op = false) := by
  unfold decodeOp
  split
  case h_36 =>
    refine .inl ⟨?_, rfl⟩
    simp only [opReserved, imp_false, Bool.or_eq_true, Bool.and_eq_true, decide_eq_true_eq] at *
    omega
  case h_3 hop | h_7 hop | h_9 hop =>
    cases eq_ofNat_of_toNat hop
    exact .inr (.inl ⟨_, rfl, rfl, rfl, rfl, rfl⟩)
  all_goals
    cases eq_ofNat_of_toNat ‹op.toNat = _›
    exact .inr (.inr ⟨_, rfl, rfl, rfl, rfl, rfl⟩)

/-- The same with the immediate looked at: the map's three answers, and when it gives each. -/
theorem decodeOp_answers (op imm : Byte) :
    (decodeOp op imm = .error .reservedOpcode ∧ opReserved op = true) ∨
    (decodeOp op imm = .error .reservedImmediate ∧ opReserved op = false ∧ opTakesImm op = false ∧ imm ≠ 0) ∨
    (∃ i, decodeOp op imm = .ok i ∧ opcodeOf i = op ∧ immOf i = imm ∧ opReserved op = false ∧
      (opTakesImm op = true ∨ imm = 0)) := by
  obtain ⟨hres, hd⟩ | ⟨i, hd, hop, himm, hres, htakes⟩ | ⟨i, hd, hop, himm, hres, htakes⟩ := decodeOp_cases op imm
  · exact .inl ⟨hd, hres⟩
  · exact .inr (.inr ⟨i, hd, hop, himm, hres, .inl htakes⟩)
  · by_cases hzero : imm = 0
    · exact .inr (.inr ⟨i, hd.trans (noImm_of_zero i hzero), hop, himm.trans hzero.symm, hres, .inr hzero⟩)
    · exact .inr (.inl ⟨hd.trans (noImm_of_ne_zero i hzero), hres, htakes, hzero⟩)

theorem decodeOp_eq_ok_iff {op imm : Byte} {i : Instr} :
    decodeOp op imm = .ok i ↔ op = opcodeOf i ∧ imm = immOf i := by
  constructor
  · intro h
    obtain ⟨hd, -⟩ | ⟨hd, -⟩ | ⟨j, hd, hop, himm, -⟩ := decodeOp_answers op imm <;> cases hd.symm.trans h
    exact ⟨hop.symm, himm.symm⟩
  · rintro ⟨rfl, rfl⟩
    exact decodeOp_opcodeOf_immOf i

/-- R96: which opcode and immediate bytes are a command's. -/
theorem exists_decodeOp_eq_ok_iff {op imm : Byte} :
    (∃ i, decodeOp op imm = .ok i) ↔ opReserved op = false ∧ (opTakesImm op = true ∨ imm = 0) := by
  obtain ⟨hd, hres⟩ | ⟨hd, hres, htakes, hne⟩ | ⟨i, hd, -, -, hres, himm⟩ := decodeOp_answers op imm
  · simp [hd, hres]
  · simpa [hd, hres, htakes] using hne
  · simpa [hd, hres] using himm

theorem decodeOp_eq_reservedOpcode_iff {op imm : Byte} :
    decodeOp op imm = .error .reservedOpcode ↔ opReserved op = true := by
  obtain ⟨hd, hres⟩ | ⟨hd, hres, -⟩ | ⟨i, hd, -, -, hres, -⟩ := decodeOp_answers op imm <;> simp [hd, hres]

theorem decodeOp_eq_reservedImmediate_iff {op imm : Byte} :
    decodeOp op imm = .error .reservedImmediate ↔ opReserved op = false ∧ opTakesImm op = false ∧ imm ≠ 0 := by
  obtain ⟨hd, hres⟩ | ⟨hd, hplain⟩ | ⟨i, hd, -, -, -, himm⟩ := decodeOp_answers op imm
  · simp [hd, hres]
  · exact iff_of_true hd hplain
  · rw [hd]
    refine iff_of_false nofun ?_
    rintro ⟨-, htakes, hne⟩
    exact himm.elim (by simp [htakes]) hne

theorem wordWellFormed_iff {w : CommandWord} :
    wordWellFormed w = true ↔ opReserved (wordOp w) = false ∧ (opTakesImm (wordOp w) = true ∨ wordImm w = 0) := by
  simp [wordWellFormed, wordOpAssigned, wordImmAllowed]

/-! ### Listings (R97) -/

@[simp] theorem encodeListing_nil : encodeListing [] = [] := rfl

@[simp] theorem encodeListing_cons (i : Instr) (is : List Instr) :
    encodeListing (i :: is) = opcodeOf i :: immOf i :: encodeListing is := rfl

/-- A listing of two bytes or more decodes where its first command does and the rest does. -/
theorem decodeListing_cons_cons_eq_ok_iff {op imm : Byte} {rest : List Byte} {is : List Instr} :
    decodeListing (op :: imm :: rest) = .ok is ↔
      ∃ i js, decodeOp op imm = .ok i ∧ decodeListing rest = .ok js ∧ is = i :: js := by
  rw [decodeListing]
  cases decodeOp op imm with
  | error e => simp
  | ok i => cases decodeListing rest <;> simp [eq_comm]

theorem decodeListing_eq_ok_iff {bs : List Byte} {is : List Instr} :
    decodeListing bs = .ok is ↔ bs = encodeListing is := by
  induction bs using List.twoStepInduction generalizing is with
  | nil => cases is <;> simp [decodeListing]
  | singleton b => cases is <;> simp [decodeListing]
  | cons_cons op imm rest ih _ =>
    rw [decodeListing_cons_cons_eq_ok_iff]
    cases is <;> simp [decodeOp_eq_ok_iff, ih, and_assoc]

/-! ### The obligations about words and listings -/

/-- Settles O7: the opcode map is read backward case by case, and a word is its two bytes. -/
theorem decodeAndEncodeAgree : Obligations.DecodeAndEncodeAgree :=
  fun _ _ => decodeOp_eq_ok_iff.trans eq_encode_iff.symm

/-- Settles O8: each of the three answers of the opcode map, with what the word is then. -/
theorem wordIsACommandIffWellFormed : Obligations.WordIsACommandIffWellFormed :=
  fun _ => ⟨exists_decodeOp_eq_ok_iff.trans wordWellFormed_iff.symm, decodeOp_eq_reservedOpcode_iff,
    decodeOp_eq_reservedImmediate_iff⟩

/-- Settles O9, by induction on the listing, two bytes a turn. -/
theorem listingsDecodeAndEncodeAgree : Obligations.ListingsDecodeAndEncodeAgree :=
  fun _ _ => decodeListing_eq_ok_iff

/-- Settles O10: each word, written out, is the word of its command. -/
theorem writtenWordsDecode : Obligations.WrittenWordsDecode :=
  ⟨decodeWord_encode .nop, decodeWord_encode (.inPush 0x72), decodeWord_encode (.beDec 4),
    decodeWord_encode (.crcUpd 0x61), decodeWord_encode .tcEq, decodeWord_encode .chParse,
    decodeWord_encode .ctRemove⟩

namespace Machine

/-! ### Runs of commands -/

theorem runInstrs_cons_of_next {i : Instr} {is : List Instr} {s t : State} (h : exec i s = .next t) :
    runInstrs (i :: is) s = runInstrs is t := by
  rw [runInstrs, h]

theorem runInstrs_append_of_next {is js : List Instr} {s t : State} (h : runInstrs is s = .next t) :
    runInstrs (is ++ js) s = runInstrs js t := by
  induction is generalizing s with
  | nil => cases h; rfl
  | cons i is ih =>
    rw [List.cons_append, runInstrs]
    rw [runInstrs] at h
    cases hexec : exec i s <;> rw [hexec] at h
    · exact ih h
    all_goals cases h

/-! ### The pseudo-instructions (R99) -/

/-- A store that can take more than it holds is not at its capacity. -/
theorem atCap_of_withinCap {cap : Option Nat} {m n : Nat} (h : withinCap cap n = true) (hlt : m < n) :
    atCap cap m = false :=
  Bool.eq_false_of_not_eq_true fun hm => absurd (withinCap_iff.1 h m (atCap_iff.1 hm)) (not_le.2 hlt)

/-- R132, where there is room. -/
theorem exec_inPush_of_room {b : Byte} {s : State} (hflt : s.FLT = 0) (hroom : atCap s.caps.stream s.I.length = false) :
    exec (.inPush b) s = .next { s with I := s.I ++ [b], S := 0x00 } := by
  rw [exec_inPush b hflt, hroom]
  rfl

theorem runInstrs_map_inPush {bs : List Byte} {s : State} (hflt : s.FLT = 0) (hS : s.S = 0x00)
    (hroom : withinCap s.caps.stream (s.I.length + bs.length) = true) :
    runInstrs (bs.map .inPush) s = .next { s with I := s.I ++ bs } := by
  induction bs generalizing s with
  | nil => simp [runInstrs]
  | cons b bs ih =>
    have hpush := exec_inPush_of_room (b := b) hflt (atCap_of_withinCap hroom (by simp))
    have hrest := ih (s := { s with I := s.I ++ [b], S := 0x00 }) hflt rfl
      (by simpa [Nat.add_assoc, Nat.add_comm 1] using hroom)
    rw [List.map_cons, runInstrs_cons_of_next hpush, hrest]
    simp [hS]

theorem runInstrs_expandInBytes {bs : List Byte} {s : State} (hflt : s.FLT = 0)
    (hroom : withinCap s.caps.stream bs.length = true) :
    runInstrs (expandInBytes bs) s = .next { s with I := bs, S := 0x00 } := by
  have hclr : exec .inClr s = .next { s with I := [], S := 0x00 } := exec_inClr hflt
  rw [expandInBytes, runInstrs_cons_of_next hclr]
  exact runInstrs_map_inPush hflt rfl (by simpa using hroom)

/-- R151: a value's four bytes, most significant first, packed again. -/
theorem be32pack_slices (v : U32) :
    be32pack (v.extractLsb' 24 8) (v.extractLsb' 16 8) (v.extractLsb' 8 8) (v.extractLsb' 0 8) = v := by
  have hslice (a n : Nat) : v.extractLsb' (a + 8) n ++ v.extractLsb' a 8 = v.extractLsb' a (n + 8) :=
    BitVec.extractLsb'_append_extractLsb'_eq_extractLsb' rfl
  rw [be32pack, hslice 16 8, hslice 8 (8 + 8), hslice 0 (8 + 8 + 8), BitVec.extractLsb'_eq_self]

/-- R152: the four bytes of a value decode to it. -/
theorem be32dec_be32enc (v : U32) : be32dec (be32enc v) = some v :=
  congrArg some (be32pack_slices v)

theorem fieldAt_zero_be32enc (v : U32) : fieldAt (be32enc v) 0 = some v :=
  be32dec_be32enc v

/-- R154, where `I` is the four bytes of a value. -/
theorem exec_beDec_of_be32enc {v : U32} {s : State} (hflt : s.FLT = 0) (hI : s.I = be32enc v) :
    exec (.beDec 0) s = .next { s with R := v, S := 0x00 } := by
  have hfield : fieldAt s.I (immOffset 0) = some v := hI ▸ fieldAt_zero_be32enc v
  rw [exec_beDec 0 hflt, hfield]
  rfl

theorem expandLdR_eq (v : U32) : expandLdR v = expandInBytes (be32enc v) ++ [.beDec 0] := rfl

theorem runInstrs_expandLdR {v : U32} {s : State} (hflt : s.FLT = 0) (hroom : withinCap s.caps.stream 4 = true) :
    runInstrs (expandLdR v) s = .next { s with R := v, I := be32enc v, S := 0x00 } := by
  rw [expandLdR_eq, runInstrs_append_of_next (runInstrs_expandInBytes hflt (bs := be32enc v) hroom)]
  exact runInstrs_cons_of_next (exec_beDec_of_be32enc hflt rfl)

/-- Settles O11: by induction on the bytes pushed, and `BE.DEC 0` reads back the four bytes of the value. -/
theorem pseudoInstructionsHaveTheirEffects : Obligations.PseudoInstructionsHaveTheirEffects :=
  ⟨fun _ => rfl, fun _ => rfl, fun _ _ => runInstrs_expandInBytes, fun _ _ => runInstrs_expandLdR⟩

/-! ### Sizes (R110) -/

theorem chunkSerialize_eq_some {c : Chunk} {s : List Byte} (h : chunkSerialize c = some s) :
    ∃ len, chunkLength c = some len ∧ s = be32enc len ++ c.type.bytes ++ c.data ++ be32enc (chunkChecksum c) := by
  unfold chunkSerialize at h
  split at h
  next => cases h
  next len hlen => cases h; exact ⟨len, hlen, rfl⟩

/-- A record is its length, its type, its payload and its checksum, four bytes each but the payload (R226). -/
theorem chunkSerialize_length {c : Chunk} {s : List Byte} (h : chunkSerialize c = some s) :
    s.length = 12 + c.data.length := by
  obtain ⟨len, -, rfl⟩ := chunkSerialize_eq_some h
  simp only [List.length_append, be32enc_length, TypeCode.bytes_length]
  omega

theorem serializeRecords_cons_eq_some {c : Chunk} {q : List Chunk} {s : List Byte}
    (h : serializeRecords (c :: q) = some s) :
    ∃ r rs, chunkSerialize c = some r ∧ serializeRecords q = some rs ∧ s = r ++ rs := by
  unfold serializeRecords at h
  split at h
  next r rs hr hrs => cases h; exact ⟨r, rs, hr, hrs, rfl⟩
  next => cases h

theorem serializeRecords_length {q : List Chunk} {s : List Byte} (h : serializeRecords q = some s) :
    s.length = (q.map fun c => 12 + c.data.length).sum := by
  induction q generalizing s with
  | nil => cases h; rfl
  | cons c q ih =>
    obtain ⟨r, rs, hr, hrs, rfl⟩ := serializeRecords_cons_eq_some h
    rw [List.length_append, chunkSerialize_length hr, ih hrs, List.map_cons, List.sum_cons]

theorem containerSerialize_eq_some {q : List Chunk} {s : List Byte} (h : containerSerialize q = some s) :
    ∃ rs, serializeRecords q = some rs ∧ s = sig ++ rs := by
  unfold containerSerialize at h
  split at h
  next rs hrs => cases h; exact ⟨rs, hrs, rfl⟩
  next => cases h

theorem containerSerialize_length {q : List Chunk} {s : List Byte} (h : containerSerialize q = some s) :
    s.length = 8 + (q.map fun c => 12 + c.data.length).sum := by
  obtain ⟨rs, hrs, rfl⟩ := containerSerialize_eq_some h
  rw [List.length_append, serializeRecords_length hrs]
  rfl

/-- Settles O47: a record's fields are counted, and a stream's records by induction on the container. -/
theorem serializedSizes : Obligations.SerializedSizes :=
  ⟨fun _ _ => chunkSerialize_length, fun _ _ => containerSerialize_length⟩

/-! ### The assembler's lines (R98) -/

/-- A character of a mnemonic: no white space, and not the start of a comment. -/
def isWordChar (c : Char) : Bool := !isBlank c && c.toNat != 0x3B

theorem isWordChar_iff {c : Char} : isWordChar c = true ↔ isBlank c = false ∧ c.toNat ≠ 0x3B := by
  simp [isWordChar]

theorem dropWhile_isBlank_of_forall {cs : List Char} (h : ∀ c ∈ cs, isBlank c = false) : cs.dropWhile isBlank = cs := by
  cases cs with
  | nil => rfl
  | cons c cs => exact List.dropWhile_cons_of_neg (by simp [h c])

theorem trimBlanks_of_forall {cs : List Char} (h : ∀ c ∈ cs, isBlank c = false) : trimBlanks cs = cs := by
  rw [trimBlanks, dropWhile_isBlank_of_forall h, dropWhile_isBlank_of_forall (by simpa using h), List.reverse_reverse]

theorem trimBlanks_nil : trimBlanks [] = [] := rfl

/-- A line that is one word is a mnemonic without operand. -/
theorem asmLine_of_word {line : String} (hne : line.toList ≠ []) (hword : ∀ c ∈ line.toList, isWordChar c = true) :
    asmLine line = asmCommand line [] := by
  have hblank : ∀ c ∈ line.toList, isBlank c = false := fun c hc => (isWordChar_iff.1 (hword c hc)).1
  have hcomment : dropComment line.toList = line.toList :=
    List.takeWhile_eq_self_iff.2 fun c hc => by simpa using (isWordChar_iff.1 (hword c hc)).2
  have htake : line.toList.takeWhile (fun c => !isBlank c) = line.toList :=
    List.takeWhile_eq_self_iff.2 fun c hc => by simp [hblank c hc]
  have hdrop : line.toList.dropWhile (fun c => !isBlank c) = [] :=
    List.dropWhile_eq_nil_iff.2 fun c hc => by simp [hblank c hc]
  simp only [asmLine, hcomment, trimBlanks_of_forall hblank, hne, htake, hdrop, if_false, String.ofList_toList,
    trimBlanks_nil]

theorem mnemonicOf_isWord : ∀ i ∈ plainInstrs,
    (mnemonicOf i).toList ≠ [] ∧ (mnemonicOf i).toList.all isWordChar = true := by
  decide

/-- No two mnemonics are the same, and none of these commands shares one with a line form that takes an operand. -/
theorem asmCommand_mnemonicOf : ∀ i ∈ plainInstrs, asmCommand (mnemonicOf i) [] = .ok [i] := by
  decide

/-- Settles O12: a mnemonic is a line of one word, and the lines with an operand are read letter by letter. -/
theorem assemblerReadsTheMnemonics : Obligations.AssemblerReadsTheMnemonics := by
  refine ⟨fun i hi => ?_, ?_⟩
  · obtain ⟨hne, hword⟩ := mnemonicOf_isWord i hi
    rw [asmLine_of_word hne (List.all_eq_true.1 hword), asmCommand_mnemonicOf i hi]
  · decide

end Machine
end Sys2Proof

/-! SUPPORT and PROOFS. Buffer commands (40_buffer_commands.md), and the rules they share with every other family: a
word that is no command is the `IllegalCommand` fault, and the encoding of a command with and without an immediate. -/

namespace Sys2Proof.Machine

/-! ### Words that are commands and words that are not (R93, R95, R311) -/

theorem execReserved_of_running {s : State} (hflt : s.FLT = 0) :
    execReserved s = .next { s with S := 0x80, FLT := 0b001 } := by
  rw [execReserved, envelope_of_running hflt, settle_fault, State.takeFault_of_running _ hflt]
  rfl

theorem wordRuns_encode (i : Instr) : wordRuns (encode i) i :=
  fun _ _ hp => step_of_decoded hp (decodeWord_encode i)

/-- R311: a word that is not well formed decodes to no command, and the block faults. -/
theorem wordIsIllegal_of_not_wellFormed {w : CommandWord} (hw : ¬ wordWellFormed w = true) : wordIsIllegal w := by
  intro s rest hp hflt
  cases hd : decodeWord w with
  | ok i => exact absurd (wordWellFormed_iff.2 (exists_decodeOp_eq_ok_iff.1 ⟨i, hd⟩)) hw
  | error e => exact (step_of_undecoded hp hd).trans (execReserved_of_running hflt)

/-- R95: an immediate where the command takes none. -/
theorem not_wellFormed_of_reservedImmediate {op imm : Byte} (htakes : opTakesImm op = false) (himm : imm ≠ 0) :
    ¬ wordWellFormed (op ++ imm) = true := by
  rw [wordWellFormed_iff, Laws.wordOp_append, Laws.wordImm_append]
  rintro ⟨-, htrue | hzero⟩
  · exact Bool.false_ne_true (htakes.symm.trans htrue)
  · exact himm hzero

/-- R95: a command whose opcode takes no immediate has the immediate byte zero. -/
theorem immOf_eq_zero {i : Instr} (htakes : opTakesImm (opcodeOf i) = false) : immOf i = 0 := by
  obtain ⟨-, htrue | hzero⟩ := exists_decodeOp_eq_ok_iff.1 ⟨i, decodeOp_opcodeOf_immOf i⟩
  · exact absurd (htakes.symm.trans htrue) Bool.false_ne_true
  · exact hzero

/-- R93, R95: the encoding of every command without an immediate. -/
theorem plainEncoding_opcodeOf {i : Instr} (htakes : opTakesImm (opcodeOf i) = false) :
    plainEncoding (opcodeOf i) i := by
  have hword : encode i = opcodeOf i ++ (0 : Byte) := by rw [encode, immOf_eq_zero htakes]
  exact ⟨hword ▸ wordRuns_encode i,
    fun _ himm => wordIsIllegal_of_not_wellFormed (not_wellFormed_of_reservedImmediate htakes himm)⟩

/-- R93: the encoding of every command with an immediate. -/
theorem immEncoding_of_opcodeOf {op : Byte} {f : Byte → Instr} (hop : ∀ b, opcodeOf (f b) = op)
    (himm : ∀ b, immOf (f b) = b) : immEncoding op f := by
  intro b
  have hword : encode (f b) = op ++ b := by rw [encode, hop, himm]
  exact hword ▸ wordRuns_encode (f b)

/-! ### `IN.PUSH` at the capacity (R132) -/

theorem atCap_eq_false_iff {cap : Option Nat} {n : Nat} : atCap cap n = false ↔ cap ≠ some n := by
  rw [← Bool.not_eq_true, atCap_iff]

/-- R132, where `I` is full. -/
theorem exec_inPush_of_full {b : Byte} {s : State} (hflt : s.FLT = 0) (hfull : atCap s.caps.stream s.I.length = true) :
    exec (.inPush b) s = .next { s with S := 0x82, FLT := 0b100 } := by
  rw [exec_inPush b hflt, if_pos hfull, settle_fault, State.takeFault_of_running _ hflt]
  rfl

/-! ### The obligations -/

/-- Settles O13: none of the four takes an immediate, and the body of each ends normally with its one write. -/
theorem plainBufferCommands : Obligations.PlainBufferCommands :=
  ⟨⟨plainEncoding_opcodeOf (i := .nop) rfl, fun _ => exec_nop⟩,
    ⟨plainEncoding_opcodeOf (i := .inClr) rfl, fun _ => exec_inClr⟩,
    ⟨plainEncoding_opcodeOf (i := .outClr) rfl, fun _ => exec_outClr⟩,
    ⟨plainEncoding_opcodeOf (i := .movIo) rfl, fun _ => exec_movIo⟩⟩

/-- Settles O14: the body's one test is whether the length of `I` is the capacity. -/
theorem inPushAppendsItsByte : Obligations.InPushAppendsItsByte :=
  ⟨immEncoding_of_opcodeOf (fun _ => rfl) fun _ => rfl,
    fun _ _ hflt hroom => exec_inPush_of_room hflt (atCap_eq_false_iff.2 hroom),
    fun _ _ hflt hfull => exec_inPush_of_full hflt (atCap_iff.2 hfull)⟩

end Sys2Proof.Machine

/-! SUPPORT and PROOFS. The big-endian unit (41_be32.md), and the rules of the two results every family shares: how an
append to `O` (R34, R313) and a result in `R` (R22) end. -/

namespace Sys2Proof.Machine

/-! ### How a result ends (R300) -/

section
variable {s : State}

theorem settle_putR (v : U32) : settle s (putR s v) = .next { s with R := v, S := 0x00 } := rfl

theorem settle_appendO_of_room {v : List Byte} (hroom : withinCap s.caps.stream (s.O.length + v.length) = true) :
    settle s (appendO s v) = .next { s with O := s.O ++ v, S := 0x00 } := by
  rw [appendO, if_pos hroom]
  rfl

theorem settle_appendO_of_full {v : List Byte} (hflt : s.FLT = 0)
    (hfull : withinCap s.caps.stream (s.O.length + v.length) = false) :
    settle s (appendO s v) = .next { s with S := 0x82, FLT := 0b100 } := by
  rw [appendO, if_neg (Bool.eq_false_iff.1 hfull), settle_fault, State.takeFault_of_running _ hflt]
  rfl

end

/-! ### The bytes of a u32 (R150) -/

/-- R150: byte `i` is the slice that ends `3 - i` bytes above the least significant bit. -/
theorem be32enc_getElem? (v : U32) {i : Nat} (hi : i ≤ 3) :
    (be32enc v)[i]? = some (v.extractLsb' (8 * (3 - i)) 8) := by
  match i, hi with
  | 0, _ | 1, _ | 2, _ | 3, _ => rfl

/-- An eight-bit slice, as arithmetic. -/
theorem extractLsb'_byte_toNat (v : U32) (a : Nat) : (v.extractLsb' a 8).toNat = v.toNat / 2 ^ a % 256 := by
  rw [BitVec.extractLsb'_toNat, Nat.shiftRight_eq_div_pow]

/-! ### The field `BE.DEC` reads (R154, R155) -/

theorem exists_fieldAt_of_le {buf : List Byte} {a : Nat} (h : a + 4 ≤ buf.length) : ∃ v, fieldAt buf a = some v :=
  Option.isSome_iff_exists.1 (fieldAt_isSome_iff.2 h)

theorem fieldAt_eq_none_of_lt {buf : List Byte} {a : Nat} (h : buf.length < a + 4) : fieldAt buf a = none :=
  Option.not_isSome_iff_eq_none.1 fun hsome => absurd (fieldAt_isSome_iff.1 hsome) (not_le.2 h)

theorem exec_beDec_of_field {imm : Byte} {v : U32} {s : State} (hflt : s.FLT = 0)
    (hfield : fieldAt s.I (immOffset imm) = some v) : exec (.beDec imm) s = .next { s with R := v, S := 0x00 } := by
  rw [exec_beDec imm hflt, hfield]
  exact settle_putR v

theorem exec_beDec_of_noField {imm : Byte} {s : State} (hflt : s.FLT = 0)
    (hfield : fieldAt s.I (immOffset imm) = none) : exec (.beDec imm) s = .next { s with S := 0x03 } := by
  rw [exec_beDec imm hflt, hfield]
  rfl

/-! ### The obligations -/

/-- Settles O15: the list is R150's own, and a slice at bit `8 * (3 - i)` is a quotient and a remainder. -/
theorem be32EncIsMostSignificantByteFirst : Obligations.Be32EncIsMostSignificantByteFirst := by
  refine fun v => ⟨rfl, fun i hi => ?_⟩
  rw [be32enc_getElem? v hi, Option.map_some, extractLsb'_byte_toNat]

/-- Settles O17: the body is one append of four bytes to `O`. -/
theorem beEncAppendsR : Obligations.BeEncAppendsR :=
  ⟨plainEncoding_opcodeOf (i := .beEnc) rfl,
    fun _ hflt hroom => (exec_beEnc hflt).trans (settle_appendO_of_room hroom),
    fun _ hflt hfull => (exec_beEnc hflt).trans (settle_appendO_of_full hflt hfull)⟩

/-- Settles O18: the body reads one field of `I`, which is there exactly where four bytes lie at and after it (R155). -/
theorem beDecReadsTheFieldAtItsOffset : Obligations.BeDecReadsTheFieldAtItsOffset := by
  refine ⟨immEncoding_of_opcodeOf (fun _ => rfl) fun _ => rfl, fun imm s hflt hin => ?_, fun imm s hflt hout => ?_⟩
  · obtain ⟨v, hfield⟩ := exists_fieldAt_of_le hin
    exact ⟨v, hfield, exec_beDec_of_field hflt hfield⟩
  · exact exec_beDec_of_noField hflt (fieldAt_eq_none_of_lt hout)

end Sys2Proof.Machine

/-! SUPPORT and PROOFS. The CRC unit (42_crc32.md). The rounds and the update are an iterate and a fold, so what is
proved of one round (linear, injective, mirrored by the most-significant-bit-first round) passes to steps and to
sequences. -/

namespace Sys2Proof.Machine

/-! ### One round (R166) -/

theorem crcRound_eq_xor (c : U32) : crcRound c = c >>> 1 ^^^ (if c.getLsbD 0 then crcPolyR else 0) := by
  unfold crcRound
  split <;> simp

/-- The term a round adds is linear in the bit shifted out. -/
theorem ite_xor_bits (p q : Bool) (v : U32) :
    (if (p ^^ q) then v else 0) = (if p then v else 0) ^^^ (if q then v else 0) := by
  cases p <;> cases q <;> simp

theorem crcRound_xor (c d : U32) : crcRound (c ^^^ d) = crcRound c ^^^ crcRound d := by
  simp only [crcRound_eq_xor, BitVec.ushiftRight_xor_distrib, BitVec.getLsbD_xor, ite_xor_bits]
  ac_rfl

/-- A round whose bit shifted out is 0 only shifts. -/
theorem crcRound_of_lsb_zero {c : U32} (h : c.getLsbD 0 = false) : crcRound c = c >>> 1 := by
  rw [crcRound, h]
  rfl

/-- The bit shifted out stands in the top bit of the result, since the top bit of the polynomial is 1. -/
theorem crcRound_getLsbD_top (c : U32) : (crcRound c).getLsbD 31 = c.getLsbD 0 := by
  rw [crcRound_eq_xor, BitVec.getLsbD_xor, BitVec.getLsbD_ushiftRight]
  cases c.getLsbD 0 <;> simp [crcPolyR]

theorem eq_of_ushiftRight_one_eq {c d : U32} (hlsb : c.getLsbD 0 = d.getLsbD 0) (hrest : c >>> 1 = d >>> 1) :
    c = d := by
  refine BitVec.eq_of_getLsbD_eq fun i _ => ?_
  cases i with
  | zero => exact hlsb
  | succ i => simpa [Nat.add_comm 1] using congrArg (·.getLsbD i) hrest

theorem crcRound_injective : Function.Injective crcRound := by
  intro c d h
  have hlsb : c.getLsbD 0 = d.getLsbD 0 := by rw [← crcRound_getLsbD_top, ← crcRound_getLsbD_top, h]
  rw [crcRound_eq_xor, crcRound_eq_xor, hlsb, BitVec.xor_left_inj] at h
  exact eq_of_ushiftRight_one_eq hlsb h

/-! ### The rounds of a step (R166) -/

theorem crcRounds_eq_iterate (n : Nat) : crcRounds n = crcRound^[n] := by
  induction n with
  | zero => rfl
  | succ n ih => funext c; rw [crcRounds, ih, Function.iterate_succ_apply]

theorem crcRounds_xor (n : Nat) (c d : U32) : crcRounds n (c ^^^ d) = crcRounds n c ^^^ crcRounds n d := by
  rw [crcRounds_eq_iterate]
  exact Function.Semiconj₂.iterate crcRound_xor n c d

theorem crcRounds_injective (n : Nat) : Function.Injective (crcRounds n) :=
  crcRounds_eq_iterate n ▸ crcRound_injective.iterate n

/-- As long as the bits shifted out are 0, rounds only shift. -/
theorem crcRounds_of_low_zero {n : Nat} {c : U32} (h : ∀ i < n, c.getLsbD i = false) : crcRounds n c = c >>> n := by
  induction n generalizing c with
  | zero => simp [crcRounds]
  | succ n ih =>
    have hrest : ∀ i < n, (c >>> 1).getLsbD i = false := fun i hi => by
      simpa [Nat.add_comm 1] using h (i + 1) (by omega)
    rw [crcRounds, crcRound_of_lsb_zero (h 0 n.succ_pos), ih hrest, ← BitVec.shiftRight_add, Nat.add_comm 1]

theorem crcStep_eq_rounds (c : U32) (b : Byte) : crcStep c b = crcRounds 8 (c ^^^ b.zeroExtend 32) := rfl

theorem crcStep_injective_register (b : Byte) : Function.Injective fun c => crcStep c b := by
  intro c d h
  exact (BitVec.xor_left_inj _).1 (crcRounds_injective 8 h)

theorem crcStep_injective_byte (c : U32) : Function.Injective (crcStep c) := by
  intro a b h
  have hext : a.zeroExtend 32 = b.zeroExtend 32 := (BitVec.xor_right_inj _).1 (crcRounds_injective 8 h)
  simpa using congrArg (BitVec.setWidth 8) hext

/-! ### The update (R167) -/

theorem crcUpdate_eq_foldl (c : U32) (s : List Byte) : crcUpdate c s = s.foldl crcStep c := by
  induction s generalizing c with
  | nil => rfl
  | cons b s ih => exact ih _

theorem crcUpdate_cons (c : U32) (b : Byte) (s : List Byte) : crcUpdate c (b :: s) = crcUpdate (crcStep c b) s := rfl

theorem crcUpdate_append (c : U32) (s t : List Byte) : crcUpdate c (s ++ t) = crcUpdate (crcUpdate c s) t := by
  simp only [crcUpdate_eq_foldl, List.foldl_append]

/-- R167: the register before is determined by the register after. -/
theorem crcUpdate_injective (s : List Byte) : Function.Injective fun c => crcUpdate c s := by
  induction s with
  | nil => exact fun _ _ h => h
  | cons b s ih => exact fun _ _ h => crcStep_injective_register b (ih h)

theorem crc32_inj {s t : List Byte} : crc32 s = crc32 t ↔ crcUpdate crcInitValue s = crcUpdate crcInitValue t :=
  BitVec.xor_left_inj _

/-! ### Most significant bit first (R169) -/

theorem getLsbD_reverse_of_lt {w i : Nat} (x : BitVec w) (hi : i < w) :
    x.reverse.getLsbD i = x.getLsbD (w - 1 - i) := by
  rw [BitVec.getLsbD_reverse, BitVec.getMsbD_eq_getLsbD, decide_eq_true hi, Bool.true_and]

theorem reverse_xor {w : Nat} (x y : BitVec w) : (x ^^^ y).reverse = x.reverse ^^^ y.reverse := by
  refine BitVec.eq_of_getLsbD_eq fun i hi => ?_
  simp only [getLsbD_reverse_of_lt _ hi, BitVec.getLsbD_xor]

theorem reverse_ushiftRight {w : Nat} (x : BitVec w) (n : Nat) : (x >>> n).reverse = x.reverse <<< n := by
  refine BitVec.eq_of_getLsbD_eq fun i hi => ?_
  rw [getLsbD_reverse_of_lt _ hi, BitVec.getLsbD_ushiftRight, BitVec.getLsbD_shiftLeft]
  by_cases hin : i < n
  · simp [hin, BitVec.getLsbD_of_ge x (n + (w - 1 - i)) (by omega)]
  · simp only [hi, hin, getLsbD_reverse_of_lt x (i := i - n) (by omega), decide_true, decide_false, Bool.not_false,
      Bool.true_and]
    congr 1
    omega

theorem crcPolyR_reverse : crcPolyR.reverse = crcPoly := by decide +kernel

/-- The two rounds mirror each other. -/
theorem crcMsbRound_reverse (c : U32) : crcMsbRound c.reverse = (crcRound c).reverse := by
  have htop : c.reverse.getLsbD 31 = c.getLsbD 0 := getLsbD_reverse_of_lt c (by decide)
  unfold crcMsbRound crcRound
  rw [htop]
  split
  · rw [reverse_xor, reverse_ushiftRight, crcPolyR_reverse]
  · rw [reverse_ushiftRight]

theorem crcMsbRounds_eq_iterate (n : Nat) : crcMsbRounds n = crcMsbRound^[n] := by
  induction n with
  | zero => rfl
  | succ n ih => funext c; rw [crcMsbRounds, ih, Function.iterate_succ_apply]

theorem crcMsbRounds_reverse (n : Nat) (c : U32) : crcMsbRounds n c.reverse = (crcRounds n c).reverse := by
  have hmirror : Function.Semiconj BitVec.reverse crcRound crcMsbRound := fun c => (crcMsbRound_reverse c).symm
  rw [crcMsbRounds_eq_iterate, crcRounds_eq_iterate]
  exact (hmirror.iterate_right n c).symm

/-- A byte that enters at the bottom, seen in the mirror, enters reversed at the top. -/
theorem reverse_zeroExtend_byte (b : Byte) : (b.zeroExtend 32).reverse = b.reverse.zeroExtend 32 <<< 24 := by
  refine BitVec.eq_of_getLsbD_eq fun i hi => ?_
  rw [getLsbD_reverse_of_lt _ hi, BitVec.getLsbD_setWidth, BitVec.getLsbD_shiftLeft]
  by_cases hin : i < 24
  · simp [hin, BitVec.getLsbD_of_ge b (32 - 1 - i) (by omega)]
  · have hbit : b.reverse.getLsbD (i - 24) = b.getLsbD (31 - i) := by
      rw [getLsbD_reverse_of_lt b (by omega)]
      congr 1
      omega
    simp [hin, hi, hbit, show 31 - i < 32 by omega, show i - 24 < 32 by omega]

theorem crcMsbStep_reverse (c : U32) (b : Byte) : crcMsbStep c.reverse b = (crcStep c b).reverse := by
  rw [crcMsbStep, crcStep, ← reverse_zeroExtend_byte, ← reverse_xor, crcMsbRounds_reverse]

theorem crcMsbUpdate_eq_foldl (c : U32) (s : List Byte) : crcMsbUpdate c s = s.foldl crcMsbStep c := by
  induction s generalizing c with
  | nil => rfl
  | cons b s ih => exact ih _

theorem crcMsbUpdate_reverse (c : U32) (s : List Byte) : crcMsbUpdate c.reverse s = (crcUpdate c s).reverse := by
  rw [crcMsbUpdate_eq_foldl, crcUpdate_eq_foldl]
  exact List.foldl_hom _ crcMsbStep_reverse

theorem crcInitValue_reverse : crcInitValue.reverse = crcInitValue := by decide +kernel

/-- Settles O23: every round, step and update of the one formulation is the mirror image of the other's, and the initial
register is its own mirror image. -/
theorem msbFirstFormulationAgrees : Obligations.MsbFirstFormulationAgrees := by
  intro s
  have hmirror := crcMsbUpdate_reverse crcInitValue s
  rw [crcInitValue_reverse] at hmirror
  rw [crc32Msb, hmirror, BitVec.reverse_reverse_eq, crc32]

/-! ### One changed bit (R171) -/

theorem xor_twoPow_ne {k : Nat} (hk : k < 8) (b : Byte) : b ^^^ BitVec.twoPow 8 k ≠ b := by
  intro h
  have hzero : BitVec.twoPow 8 k = 0 := (BitVec.xor_right_inj b).1 (h.trans BitVec.xor_zero.symm)
  simpa [hk] using congrArg (·.getLsbD k) hzero

/-- Settles O25: the step at the changed byte is injective in the byte, and the steps after it are injective in the
register. -/
theorem oneBitErrorChangesTheCrc : Obligations.OneBitErrorChangesTheCrc := by
  intro p q b k hk h
  rw [crc32_inj, crcUpdate_append, crcUpdate_append, crcUpdate_cons, crcUpdate_cons] at h
  exact xor_twoPow_ne hk b (crcStep_injective_byte _ (crcUpdate_injective q h))

/-! ### The table (R170) -/

/-- The printed entries, compared one by one with the steps from zero. -/
theorem crcTab_eq_map_crcStep : crcTab = (List.range 256).map fun i => crcStep 0 (BitVec.ofNat 8 i) := by
  decide +kernel

theorem crcTab_length : crcTab.length = 256 := by
  rw [crcTab_eq_map_crcStep, List.length_map, List.length_range]

theorem crcTab_getElem? (i : Byte) : crcTab[i.toNat]? = some (crcStep 0 i) := by
  rw [crcTab_eq_map_crcStep, List.getElem?_map, List.getElem?_range i.isLt, Option.map_some, BitVec.ofNat_toNat,
    BitVec.setWidth_eq]

/-- A register is its low byte and the rest. -/
theorem low_byte_xor_rest (c : U32) : (c.extractLsb' 0 8).zeroExtend 32 ^^^ (c >>> 8) <<< 8 = c := by
  refine BitVec.eq_of_getLsbD_eq fun i hi => ?_
  by_cases h8 : i < 8
  · simp [h8, hi]
  · simp [h8, hi, Nat.add_sub_cancel' (not_lt.1 h8)]

/-- The rounds are linear, and on the rest, whose low byte is 0, they only shift. -/
theorem crcRounds_eight (c : U32) : crcRounds 8 c = crcStep 0 (c.extractLsb' 0 8) ^^^ c >>> 8 := by
  have hrest : crcRounds 8 ((c >>> 8) <<< 8) = c >>> 8 := by
    rw [crcRounds_of_low_zero fun i hi => by simp [hi]]
    refine BitVec.eq_of_getLsbD_eq fun i hi => ?_
    by_cases h24 : 8 + i < 32
    · simp [h24]
    · simp [h24, BitVec.getLsbD_of_ge c (8 + i) (by omega)]
  calc crcRounds 8 c
      = crcRounds 8 ((c.extractLsb' 0 8).zeroExtend 32 ^^^ (c >>> 8) <<< 8) := by rw [low_byte_xor_rest]
    _ = crcRounds 8 ((c.extractLsb' 0 8).zeroExtend 32) ^^^ c >>> 8 := by rw [crcRounds_xor, hrest]
    _ = crcStep 0 (c.extractLsb' 0 8) ^^^ c >>> 8 := by simp [crcStep]

/-- A byte is gone after eight shifts. -/
theorem xor_zeroExtend_ushiftRight (c : U32) (b : Byte) : (c ^^^ b.zeroExtend 32) >>> 8 = c >>> 8 := by
  have hgone : b.zeroExtend 32 >>> 8 = 0#32 := BitVec.eq_of_getLsbD_eq fun i _ => by simp
  rw [BitVec.ushiftRight_xor_distrib, hgone, BitVec.xor_zero]

theorem crcTabStep_eq_crcStep (c : U32) (b : Byte) : crcTabStep c b = crcStep c b := by
  rw [crcTabStep, crcTab_getElem?, Option.getD_some, crcStep_eq_rounds c, crcRounds_eight, xor_zeroExtend_ushiftRight]

/-- Settles O24: the entries are compared with the steps from zero, and a step is linear, so it is the entry of the low
byte and the rest of the register shifted. -/
theorem tableFormulationAgrees : Obligations.TableFormulationAgrees :=
  ⟨crcTab_getElem?, crcTab_length, crcTabStep_eq_crcStep⟩

/-! ### The commands (R175 to R178) -/

/-- Settles O19: the definition with the constants written out; the check value is computed. -/
theorem crc32IsTheXoredRegister : Obligations.Crc32IsTheXoredRegister :=
  ⟨fun _ => rfl, by decide +kernel, by decide +kernel⟩

/-- Settles O20: neither takes an immediate, and the body of each ends normally with its one write. -/
theorem crcInitAndCrcFin : Obligations.CrcInitAndCrcFin :=
  ⟨⟨plainEncoding_opcodeOf (i := .crcInit) rfl, fun _ => exec_crcInit⟩,
    ⟨plainEncoding_opcodeOf (i := .crcFin) rfl, fun _ hflt => (exec_crcFin hflt).trans (settle_putR _)⟩⟩

/-- R176, R177: a feed absorbs its bytes. -/
theorem exec_crcFeed (f : Option Byte) {s : State} (hflt : s.FLT = 0) :
    exec (crcFeed f) s = .next { s with C := crcUpdate s.C (crcFed s.I f), S := 0x00 } := by
  cases f with
  | some b => exact exec_crcUpd b hflt
  | none => exact exec_crcUpdi hflt

/-- R179: feeds absorb their bytes in order. -/
theorem runInstrs_map_crcFeed (fs : List (Option Byte)) (c : U32) {s : State} (hflt : s.FLT = 0) :
    runInstrs (fs.map crcFeed) { s with C := c, S := 0x00 } =
      .next { s with C := crcUpdate c (fs.flatMap (crcFed s.I)), S := 0x00 } := by
  induction fs generalizing c with
  | nil => rfl
  | cons f fs ih =>
    have hfeed : exec (crcFeed f) { s with C := c, S := 0x00 } =
        .next { s with C := crcUpdate c (crcFed s.I f), S := 0x00 } := exec_crcFeed f hflt
    rw [List.map_cons, runInstrs_cons_of_next hfeed, ih, List.flatMap_cons, crcUpdate_append]

theorem flatMap_crcFed_some (buf bs : List Byte) : (bs.map some).flatMap (crcFed buf) = bs := by
  induction bs with
  | nil => rfl
  | cons b bs ih => rw [List.map_cons, List.flatMap_cons, ih]; rfl

theorem map_crcFeed_some (bs : List Byte) : (bs.map some).map crcFeed = bs.map .crcUpd := by
  rw [List.map_map]
  rfl

/-- R177: one `CRC.UPD` for each byte of `I`, after a `NOP`, is `CRC.UPDI`. -/
theorem runInstrs_nop_map_crcUpd {s : State} (hflt : s.FLT = 0) :
    runInstrs (.nop :: s.I.map .crcUpd) s = exec .crcUpdi s := by
  have hnop : exec .nop s = .next { s with S := 0x00 } := exec_nop hflt
  have hfeeds := runInstrs_map_crcFeed (s.I.map some) s.C hflt
  rw [map_crcFeed_some, flatMap_crcFed_some] at hfeeds
  exact (runInstrs_cons_of_next hnop).trans (hfeeds.trans (exec_crcUpdi hflt).symm)

/-- Settles O21: the bodies' writes, and the successive `CRC.UPD`s are a list of feeds. -/
theorem crcUpdAndCrcUpdi : Obligations.CrcUpdAndCrcUpdi :=
  ⟨⟨immEncoding_of_opcodeOf (fun _ => rfl) fun _ => rfl, fun imm _ => exec_crcUpd imm⟩,
    ⟨plainEncoding_opcodeOf (i := .crcUpdi) rfl,
      fun _ hflt => ⟨exec_crcUpdi hflt, runInstrs_nop_map_crcUpd hflt⟩⟩⟩

/-! ### Sessions (R179) -/

/-- R99, R177: a piece is brought into `I` and absorbed. -/
theorem runInstrs_feedPiece {p : List Byte} {s : State} (hflt : s.FLT = 0)
    (hroom : withinCap s.caps.stream p.length = true) :
    runInstrs (expandInBytes p ++ [.crcUpdi]) s = .next { s with I := p, C := crcUpdate s.C p, S := 0x00 } := by
  rw [runInstrs_append_of_next (runInstrs_expandInBytes hflt hroom)]
  exact runInstrs_cons_of_next (exec_crcUpdi hflt)

theorem runInstrs_feedPieces {ps : List (List Byte)} (buf : List Byte) (c : U32) {s : State} (hflt : s.FLT = 0)
    (hroom : ∀ p ∈ ps, withinCap s.caps.stream p.length = true) :
    runInstrs (ps.flatMap fun p => expandInBytes p ++ [.crcUpdi]) { s with I := buf, C := c, S := 0x00 } =
      .next { s with I := ps.getLastD buf, C := crcUpdate c ps.flatten, S := 0x00 } := by
  induction ps generalizing buf c with
  | nil => rfl
  | cons p ps ih =>
    obtain ⟨hp, hps⟩ := List.forall_mem_cons.1 hroom
    have hpiece : runInstrs (expandInBytes p ++ [.crcUpdi]) { s with I := buf, C := c, S := 0x00 } =
        .next { s with I := p, C := crcUpdate c p, S := 0x00 } := runInstrs_feedPiece hflt hp
    rw [List.flatMap_cons, runInstrs_append_of_next hpiece, ih p _ hps, List.flatten_cons, crcUpdate_append,
      List.getLastD_cons]

/-- R175, R178, R179: whatever runs between `CRC.INIT` and `CRC.FIN`, the session ends with the register's checksum. -/
theorem runInstrs_session {is : List Instr} {bs buf : List Byte} {s : State} (hflt : s.FLT = 0)
    (hrun : runInstrs is { s with C := crcInitValue, S := 0x00 } =
      .next { s with I := buf, C := crcUpdate crcInitValue bs, S := 0x00 }) :
    runInstrs (.crcInit :: is ++ [.crcFin]) s =
      .next { s with I := buf, C := crcUpdate 0xFFFFFFFF bs, R := crc32 bs, S := 0x00 } := by
  have hinit : exec .crcInit s = .next { s with C := crcInitValue, S := 0x00 } := exec_crcInit hflt
  rw [List.cons_append, runInstrs_cons_of_next hinit, runInstrs_append_of_next hrun]
  exact runInstrs_cons_of_next (exec_crcFin hflt)

/-- Settles O22, by induction on the feeds and on the pieces. -/
theorem crcSessionGivesTheChecksum : Obligations.CrcSessionGivesTheChecksum :=
  ⟨crcUpdate_append, fun _ _ hflt => runInstrs_session hflt (runInstrs_map_crcFeed _ _ hflt),
    fun _ _ hflt hroom => runInstrs_session hflt (runInstrs_feedPieces _ _ hflt hroom)⟩

end Sys2Proof.Machine

/-! SUPPORT and PROOFS. The type-code checker (43_typecode.md): the case bit of a letter as a comparison of byte values,
the two constructors, and the rule of a command whose operand register is empty, which every later family shares. -/

namespace Sys2Proof.Machine

/-! ### Letters and their case (R190, R193 to R196) -/

theorem isAlpha_iff {b : Byte} :
    isAlpha b = true ↔ (0x41 ≤ b.toNat ∧ b.toNat ≤ 0x5A) ∨ (0x61 ≤ b.toNat ∧ b.toNat ≤ 0x7A) := by
  simp only [isAlpha, Bool.or_eq_true, Bool.and_eq_true, decide_eq_true_eq]

/-- Bit 5 as arithmetic: the mask `0x20` is 32. -/
theorem caseBit_iff {b : Byte} : caseBit b = true ↔ b.toNat / 32 % 2 = 1 := by
  rw [caseBit, ← BitVec.testBit_toNat, Nat.testBit_eq_decide_div_mod_eq, decide_eq_true_eq]

theorem not_caseBit_iff {b : Byte} : (!caseBit b) = true ↔ b.getLsbD 5 = false := by
  rw [Bool.not_eq_true', caseBit]

theorem caseBit_iff_lower {b : Byte} (hb : isAlpha b = true) : caseBit b = true ↔ 0x61 ≤ b.toNat := by
  have hrange := isAlpha_iff.1 hb
  rw [caseBit_iff]
  omega

theorem not_caseBit_iff_upper {b : Byte} (hb : isAlpha b = true) : (!caseBit b) = true ↔ b.toNat ≤ 0x5A := by
  have hrange := isAlpha_iff.1 hb
  rw [Bool.not_eq_true', ← Bool.not_eq_true, caseBit_iff_lower hb]
  omega

theorem TypeCode.isAlpha_iff {t : TypeCode} : t.isAlpha = true ↔
    Machine.isAlpha t.b0 = true ∧ Machine.isAlpha t.b1 = true ∧ Machine.isAlpha t.b2 = true ∧
      Machine.isAlpha t.b3 = true := by
  simp only [TypeCode.isAlpha, Bool.and_eq_true, and_assoc]

theorem TypeCode.isValid_iff {t : TypeCode} :
    t.isValid = true ↔ t.isAlpha = true ∧ t.isReservedBitValid = true :=
  Bool.and_eq_true_iff

/-! ### The constructors (R191, R192) -/

section
variable {s : State} {t : TypeCode}

theorem settle_putT_of_letters (ht : t.isAlpha = true) :
    settle s (putT s (tcConstruct t)) = .next { s with T := some t, S := 0x00 } := by
  rw [tcConstruct, if_pos ht]
  rfl

theorem settle_putT_of_notLetters (ht : t.isAlpha = false) :
    settle s (putT s (tcConstruct t)) = .next { s with S := 0x01 } := by
  rw [tcConstruct, if_neg (Bool.eq_false_iff.1 ht)]
  rfl

/-- R23, R150: `unpack` takes the bytes of `be32enc`. -/
theorem TypeCode.ofU32_of_be32enc {v : U32} (hv : be32enc v = t.bytes) : TypeCode.ofU32 v = t :=
  Option.some.inj (TypeCode.ofBytes_eq_some.2 hv)

theorem exec_tcNew_of_bytes (hflt : s.FLT = 0) (hR : be32enc s.R = t.bytes) :
    exec .tcNew s = settle s (putT s (tcConstruct t)) := by
  rw [exec_tcNew hflt, TypeCode.ofU32_of_be32enc hR]

theorem tcConstructFromText_bytes (t : TypeCode) : tcConstructFromText t.bytes = tcConstruct t := rfl

theorem tcConstructFromText_of_length_ne {text : List Byte} (hlen : text.length ≠ 4) :
    tcConstructFromText text = .error .wrongLength := by
  unfold tcConstructFromText
  split
  next => rfl
  next u hu => exact absurd (TypeCode.ofBytes_eq_some.1 hu ▸ u.bytes_length) hlen

theorem exec_tcNewt_of_bytes (hflt : s.FLT = 0) (hI : s.I = t.bytes) :
    exec .tcNewt s = settle s (putT s (tcConstruct t)) := by
  rw [exec_tcNewt hflt, hI, tcConstructFromText_bytes]

theorem exec_tcNewt_of_length_ne (hflt : s.FLT = 0) (hlen : s.I.length ≠ 4) :
    exec .tcNewt s = .next { s with S := 0x02 } := by
  rw [exec_tcNewt hflt, tcConstructFromText_of_length_ne hlen]
  rfl

/-! ### An empty operand register (R312) -/

theorem settle_emptyOperand (hflt : s.FLT = 0) :
    settle s (.fault .emptyOperand) = .next { s with S := 0x81, FLT := 0b010 } := by
  rw [settle_fault, State.takeFault_of_running _ hflt]
  rfl

theorem settle_needT_of_none {f : TypeCode → Ending} (hflt : s.FLT = 0) (hT : s.T = none) :
    settle s (needT s f) = .next { s with S := 0x81, FLT := 0b010 } := by
  rw [needT_of_none hT, settle_emptyOperand hflt]

theorem settle_needK_of_none {f : Chunk → Ending} (hflt : s.FLT = 0) (hK : s.K = none) :
    settle s (needK s f) = .next { s with S := 0x81, FLT := 0b010 } := by
  rw [needK_of_none hK, settle_emptyOperand hflt]

/-! ### Predicates in `R` (R12 `zext_32`, R202 to R206, R209) -/

theorem zext32_not (b : Bool) : zext32 (!b) = if b then 0 else 1 := by cases b <;> rfl

theorem settle_predicateOfT_of_some (p : TypeCode → Bool) (hT : s.T = some t) :
    settle s (predicateOfT p s) = .next { s with R := zext32 (p t), S := 0x00 } := by
  rw [predicateOfT, needT_of_some hT, settle_putR]

/-- R203 to R205: the polarity of a predicate that holds where the bit is clear. -/
theorem settle_predicateOfT_not_of_some (p : TypeCode → Bool) (hT : s.T = some t) :
    settle s (predicateOfT (fun u => !p u) s) = .next { s with R := if p t then 0 else 1, S := 0x00 } := by
  rw [settle_predicateOfT_of_some _ hT, zext32_not]

end

theorem zext32_eq_ite {b : Bool} {p : Prop} [Decidable p] (h : b = true ↔ p) : zext32 b = if p then 1 else 0 :=
  if_congr h rfl rfl

theorem TypeCode.beq_iff {t u : TypeCode} :
    (t == u) = true ↔ t.b0 = u.b0 ∧ t.b1 = u.b1 ∧ t.b2 = u.b2 ∧ t.b3 = u.b3 := by
  cases t; cases u
  rw [beq_iff_eq, TypeCode.mk.injEq]

/-! ### The obligations -/

/-- Settles O26: on a letter bit 5 separates the two ranges, because each lies between two multiples of 32. -/
theorem typePredicatesAreTheCaseOfOneByte : Obligations.TypePredicatesAreTheCaseOfOneByte := by
  refine ⟨fun _ => isAlpha_iff, fun t => ?_, by decide, fun t ht => ?_⟩
  · rw [TypeCode.isValid_iff, TypeCode.isAlpha_iff]
  · obtain ⟨h0, h1, h2, h3⟩ := TypeCode.isAlpha_iff.1 ht
    have hvalid : t.isValid = true ↔ t.isReservedBitValid = true :=
      TypeCode.isValid_iff.trans (and_iff_right ht)
    exact ⟨not_caseBit_iff, not_caseBit_iff_upper h0, not_caseBit_iff, not_caseBit_iff_upper h1,
      not_caseBit_iff, not_caseBit_iff_upper h2, Iff.rfl, caseBit_iff_lower h3, hvalid⟩

/-- Settles O27: the four bytes of `R` are constructed, which is the test of their letters alone. -/
theorem tcNewConstructsFromR : Obligations.TcNewConstructsFromR :=
  ⟨plainEncoding_opcodeOf (i := .tcNew) rfl,
    fun b0 b1 b2 b3 _ hflt hR ht =>
      (exec_tcNew_of_bytes (t := ⟨b0, b1, b2, b3⟩) hflt hR).trans (settle_putT_of_letters ht),
    fun b0 b1 b2 b3 _ hflt hR ht =>
      (exec_tcNew_of_bytes (t := ⟨b0, b1, b2, b3⟩) hflt hR).trans (settle_putT_of_notLetters ht)⟩

/-- Settles O28: only four bytes are a type code's, so a length other than 4 never reaches the test of the letters. -/
theorem tcNewtConstructsFromText : Obligations.TcNewtConstructsFromText :=
  ⟨plainEncoding_opcodeOf (i := .tcNewt) rfl,
    fun _ hflt hlen => exec_tcNewt_of_length_ne hflt hlen,
    fun b0 b1 b2 b3 _ hflt hI ht =>
      (exec_tcNewt_of_bytes (t := ⟨b0, b1, b2, b3⟩) hflt hI).trans (settle_putT_of_notLetters ht),
    fun b0 b1 b2 b3 _ hflt hI ht =>
      (exec_tcNewt_of_bytes (t := ⟨b0, b1, b2, b3⟩) hflt hI).trans (settle_putT_of_letters ht)⟩

/-- The commands of R202 to R206 are one body, for one predicate each. -/
theorem exists_exec_eq_predicateOfT : ∀ i ∈ [Instr.tcValid, .tcCrit, .tcPub, .tcRsv, .tcSafe],
    ∃ p, ∀ s : State, s.FLT = 0 → exec i s = settle s (predicateOfT p s) := by
  simp only [List.forall_mem_cons]
  exact ⟨⟨_, fun _ => exec_tcValid⟩, ⟨_, fun _ => exec_tcCrit⟩, ⟨_, fun _ => exec_tcPub⟩, ⟨_, fun _ => exec_tcRsv⟩,
    ⟨_, fun _ => exec_tcSafe⟩, nofun⟩

/-- Settles O29: three of the predicates are the complement of a case bit, which turns the 1 and the 0 about. -/
theorem tcPredicatesAnswerInR : Obligations.TcPredicatesAnswerInR := by
  refine ⟨⟨plainEncoding_opcodeOf (i := .tcValid) rfl, plainEncoding_opcodeOf (i := .tcCrit) rfl,
    plainEncoding_opcodeOf (i := .tcPub) rfl, plainEncoding_opcodeOf (i := .tcRsv) rfl,
    plainEncoding_opcodeOf (i := .tcSafe) rfl⟩, fun t s hflt hT => ⟨?valid, ?crit, ?pub, ?rsv, ?safe⟩, ?empty⟩
  case valid => exact (exec_tcValid hflt).trans (settle_predicateOfT_of_some _ hT)
  case crit => exact (exec_tcCrit hflt).trans (settle_predicateOfT_not_of_some (fun u => caseBit u.b0) hT)
  case pub => exact (exec_tcPub hflt).trans (settle_predicateOfT_not_of_some (fun u => caseBit u.b1) hT)
  case rsv => exact (exec_tcRsv hflt).trans (settle_predicateOfT_not_of_some (fun u => caseBit u.b2) hT)
  case safe => exact (exec_tcSafe hflt).trans (settle_predicateOfT_of_some _ hT)
  case empty =>
    intro s hflt hT i hi
    obtain ⟨p, hp⟩ := exists_exec_eq_predicateOfT i hi
    exact (hp s hflt).trans (settle_needT_of_none hflt hT)

/-- Settles O30: both read `T` and nothing else, and `TC.TEXT` is one append of four bytes. -/
theorem tcBytesAndTcText : Obligations.TcBytesAndTcText := by
  refine ⟨⟨plainEncoding_opcodeOf (i := .tcBytes) rfl, fun t s hflt hT => ⟨t.toU32, rfl, ?bytes⟩,
      fun s hflt hT => (exec_tcBytes hflt).trans (settle_needT_of_none hflt hT)⟩,
    plainEncoding_opcodeOf (i := .tcText) rfl, fun t s hflt hT hroom => ?room, fun t s hflt hT hfull => ?full,
      fun s hflt hT => (exec_tcText hflt).trans (settle_needT_of_none hflt hT)⟩
  case bytes => rw [exec_tcBytes hflt, needT_of_some hT, settle_putR]
  case room => rw [exec_tcText hflt, needT_of_some hT]; exact settle_appendO_of_room hroom
  case full => rw [exec_tcText hflt, needT_of_some hT]; exact settle_appendO_of_full hflt hfull

/-- Settles O31: two type codes are equal where their bytes are; with `T` valid the empty register is `K`. -/
theorem tcEqComparesWithKType : Obligations.TcEqComparesWithKType := by
  refine ⟨plainEncoding_opcodeOf (i := .tcEq) rfl, fun t k s hflt hT hK => ?_, fun s hflt hempty => ?_⟩
  · rw [exec_tcEq hflt, needT_of_some hT, needK_of_some hK, settle_putR, zext32_eq_ite TypeCode.beq_iff]
  · rw [exec_tcEq hflt]
    obtain hT | ⟨t, hT⟩ := Option.eq_none_or_eq_some s.T
    · exact settle_needT_of_none hflt hT
    · have hK : s.K = none := hempty.resolve_left (by rw [hT]; exact Option.some_ne_none t)
      rw [needT_of_some hT, settle_needK_of_none hflt hK]

end Sys2Proof.Machine

/-! SUPPORT and PROOFS. Records of chunks (44_chunk.md sections 1 and 3). Every sequence of at least 12 bytes is four
fields, and `chunkParse` is a chain of tests on the fields, so that parsing is serialising read backward and one changed
byte is one changed field. -/

namespace Sys2Proof.Machine

/-! ### Four bytes (R150, R13) -/

/-- R152, the other way from `be32pack_slices`. -/
theorem be32enc_be32pack (b0 b1 b2 b3 : Byte) : be32enc (be32pack b0 b1 b2 b3) = [b0, b1, b2, b3] := by
  simp only [be32enc, be32pack, List.cons.injEq, and_true]
  refine ⟨?_, ?_, ?_, ?_⟩ <;> ext i hi <;> simp <;> grind

theorem exists_be32enc_of_length {bs : List Byte} (h : bs.length = 4) : ∃ v, bs = be32enc v := by
  obtain ⟨b0, b1, b2, b3, rfl⟩ := List.length_eq_four.1 h
  exact ⟨_, (be32enc_be32pack b0 b1 b2 b3).symm⟩

theorem exists_bytes_of_length {bs : List Byte} (h : bs.length = 4) : ∃ t : TypeCode, bs = t.bytes := by
  obtain ⟨b0, b1, b2, b3, rfl⟩ := List.length_eq_four.1 h
  exact ⟨⟨b0, b1, b2, b3⟩, rfl⟩

theorem TypeCode.isAlpha_eq_all (t : TypeCode) : t.isAlpha = t.bytes.all Machine.isAlpha := by
  simp [TypeCode.isAlpha, TypeCode.bytes, Bool.and_assoc]

/-! ### The fields of a record (R102) -/

/-- The record of these four fields, whatever they say of each other. -/
def recordOf (len : U32) (t : TypeCode) (d : List Byte) (sum : U32) : List Byte :=
  be32enc len ++ t.bytes ++ d ++ be32enc sum

theorem chunkLength_eq_some_iff {c : Chunk} {len : U32} : chunkLength c = some len ↔ c.data.length = len.toNat := by
  unfold chunkLength
  split
  next hle =>
    rw [Option.some.injEq, ← BitVec.toNat_inj, BitVec.toNat_ofNat, Nat.mod_eq_of_lt (Nat.lt_succ_of_le hle)]
  next hgt =>
    exact iff_of_false nofun fun hlen => hgt (hlen ▸ Nat.le_of_lt_succ len.isLt)

/-- R226: a chunk's serialisation is the record of its length, its type, its payload and its checksum. -/
theorem chunkSerialize_eq_some_iff {c : Chunk} {s : List Byte} : chunkSerialize c = some s ↔
    ∃ len : U32, c.data.length = len.toNat ∧ s = recordOf len c.type c.data (chunkChecksum c) := by
  constructor
  · intro h
    obtain ⟨len, hlen, rfl⟩ := chunkSerialize_eq_some h
    exact ⟨len, chunkLength_eq_some_iff.1 hlen, rfl⟩
  · rintro ⟨len, hlen, rfl⟩
    rw [chunkSerialize, chunkLength_eq_some_iff.2 hlen]
    rfl

section
variable {len sum : U32} {t : TypeCode} {d : List Byte}

@[simp] theorem recordOf_length (len sum : U32) (t : TypeCode) (d : List Byte) :
    (recordOf len t d sum).length = 12 + d.length := by
  simp only [recordOf, List.length_append, be32enc_length, TypeCode.bytes_length]
  omega

theorem exists_recordOf_of_length {s : List Byte} (h : 12 ≤ s.length) : ∃ len t d sum, s = recordOf len t d sum := by
  obtain ⟨len, hlen⟩ := exists_be32enc_of_length (bs := s.take 4) (by simp; omega)
  obtain ⟨t, ht⟩ := exists_bytes_of_length (bs := (s.drop 4).take 4) (by simp; omega)
  obtain ⟨sum, hsum⟩ := exists_be32enc_of_length (bs := ((s.drop 4).drop 4).drop (s.length - 12)) (by simp; omega)
  refine ⟨len, t, ((s.drop 4).drop 4).take (s.length - 12), sum, ?_⟩
  rw [recordOf, ← hlen, ← ht, ← hsum, List.append_assoc, List.take_append_drop, List.append_assoc,
    List.take_append_drop, List.take_append_drop]

/-! ### Reading the fields (R12, R68) -/

theorem memRead_of_eq_append {buf p m q : List Byte} {a n : Nat} (h : buf = p ++ (m ++ q)) (ha : p.length = a)
    (hn : m.length = n) : memRead buf a n = m := by
  subst h ha hn
  rw [memRead, List.drop_left, List.take_left]

theorem fieldAt_of_eq_append {buf p q : List Byte} {v : U32} {a : Nat} (h : buf = p ++ (be32enc v ++ q))
    (ha : p.length = a) : fieldAt buf a = some v := by
  rw [fieldAt, memRead_of_eq_append h ha (be32enc_length v), be32dec_be32enc]

theorem fieldAt_zero_recordOf : fieldAt (recordOf len t d sum) 0 = some len :=
  fieldAt_of_eq_append (p := []) (q := t.bytes ++ d ++ be32enc sum) (by simp [recordOf]) rfl

theorem ofBytes_recordOf : TypeCode.ofBytes (memRead (recordOf len t d sum) 4 4) = some t := by
  rw [memRead_of_eq_append (p := be32enc len) (m := t.bytes) (q := d ++ be32enc sum) (by simp [recordOf])
    (be32enc_length len) t.bytes_length, TypeCode.ofBytes_bytes]

theorem memRead_payload_recordOf (h : d.length = len.toNat) : memRead (recordOf len t d sum) 8 len.toNat = d :=
  memRead_of_eq_append (p := be32enc len ++ t.bytes) (q := be32enc sum) (by simp [recordOf]) rfl h

theorem fieldAt_checksum_recordOf (h : d.length = len.toNat) :
    fieldAt (recordOf len t d sum) (8 + len.toNat) = some sum :=
  fieldAt_of_eq_append (p := be32enc len ++ t.bytes ++ d) (q := []) (by simp [recordOf])
    (by rw [List.length_append, h]; rfl)

/-! ### The four checks, on the fields (R227) -/

theorem chunkParse_of_short {s : List Byte} (h : s.length < 12) : chunkParse s = .error .truncated := if_pos h

theorem chunkParse_recordOf (len sum : U32) (t : TypeCode) (d : List Byte) : chunkParse (recordOf len t d sum) =
    if d.length ≠ len.toNat then .error .lengthMismatch
    else if t.isAlpha = false then .error .invalidType
    else if crc32 (t.bytes ++ d) ≠ sum then .error .checksumMismatch
    else .ok ⟨t, d⟩ := by
  have hsize : (recordOf len t d sum).length - 12 = d.length := by simp
  rw [chunkParse, if_neg (by simp), fieldAt_zero_recordOf, ofBytes_recordOf]
  simp only [hsize, Bool.not_eq_true']
  refine if_ctx_congr Iff.rfl (fun _ => rfl) fun hlen => if_ctx_congr Iff.rfl (fun _ => rfl) fun _ => ?_
  rw [fieldAt_checksum_recordOf (not_not.1 hlen), memRead_payload_recordOf (not_not.1 hlen)]
  rfl

theorem chunkParse_of_lengthMismatch (hlen : d.length ≠ len.toNat) :
    chunkParse (recordOf len t d sum) = .error .lengthMismatch := by
  rw [chunkParse_recordOf, if_pos hlen]

theorem chunkParse_of_invalidType (hlen : d.length = len.toNat) (ht : t.isAlpha = false) :
    chunkParse (recordOf len t d sum) = .error .invalidType := by
  rw [chunkParse_recordOf, if_neg (not_not.2 hlen), if_pos ht]

theorem chunkParse_of_checksumMismatch (hlen : d.length = len.toNat) (ht : t.isAlpha = true)
    (hsum : crc32 (t.bytes ++ d) ≠ sum) : chunkParse (recordOf len t d sum) = .error .checksumMismatch := by
  rw [chunkParse_recordOf, if_neg (not_not.2 hlen), if_neg (by simp [ht]), if_pos hsum]

theorem chunkParse_of_good (hlen : d.length = len.toNat) (ht : t.isAlpha = true) (hsum : crc32 (t.bytes ++ d) = sum) :
    chunkParse (recordOf len t d sum) = .ok ⟨t, d⟩ := by
  rw [chunkParse_recordOf, if_neg (not_not.2 hlen), if_neg (by simp [ht]), if_neg (not_not.2 hsum)]

end

/-! ### Parsing is serialising read backward -/

theorem chunkParse_recordOf_eq_ok_iff {len sum : U32} {t : TypeCode} {d : List Byte} {c : Chunk} :
    chunkParse (recordOf len t d sum) = .ok c ↔
      d.length = len.toNat ∧ t.isAlpha = true ∧ crc32 (t.bytes ++ d) = sum ∧ c = ⟨t, d⟩ := by
  rw [chunkParse_recordOf]
  split_ifs with hlen ht hsum
  · exact iff_of_false nofun fun ⟨hlen', _⟩ => hlen hlen'
  · exact iff_of_false nofun fun ⟨_, ht', _⟩ => Bool.false_ne_true (ht.symm.trans ht')
  · exact iff_of_false nofun fun ⟨_, _, hsum', _⟩ => hsum hsum'
  · simp [not_not.1 hlen, Bool.eq_true_of_not_eq_false ht, not_not.1 hsum, eq_comm]

/-- What parses to a chunk is its own record. -/
theorem chunkSerialize_of_chunkParse_eq_ok {s : List Byte} {c : Chunk} (h : chunkParse s = .ok c) :
    c.type.isAlpha = true ∧ chunkSerialize c = some s := by
  by_cases hshort : s.length < 12
  · cases (chunkParse_of_short hshort).symm.trans h
  · obtain ⟨len, t, d, sum, rfl⟩ := exists_recordOf_of_length (not_lt.1 hshort)
    obtain ⟨hlen, ht, rfl, rfl⟩ := chunkParse_recordOf_eq_ok_iff.1 h
    exact ⟨ht, chunkSerialize_eq_some_iff.2 ⟨len, hlen, rfl⟩⟩

theorem chunkParse_of_chunkSerialize {s : List Byte} {c : Chunk} (ht : c.type.isAlpha = true)
    (h : chunkSerialize c = some s) : chunkParse s = .ok c := by
  obtain ⟨len, hlen, rfl⟩ := chunkSerialize_eq_some_iff.1 h
  exact chunkParse_of_good hlen ht rfl

/-- Settles O39: a sequence long enough is four fields, and the tests that all pass on them are those a record meets. -/
theorem chunkParseAndSerializeAgree : Obligations.ChunkParseAndSerializeAgree :=
  fun _ _ => ⟨chunkSerialize_of_chunkParse_eq_ok, fun ⟨ht, h⟩ => chunkParse_of_chunkSerialize ht h⟩

/-! ### One changed byte is one changed field -/

theorem exists_of_append_cons_eq_append_left {p q u v : List Byte} {b : Byte} (h : u ++ v = p ++ b :: q)
    (hp : p.length < u.length) : ∃ r, u = p ++ b :: r ∧ q = r ++ v := by
  obtain ⟨r, rfl, hv⟩ | ⟨r, rfl, hv⟩ := List.append_eq_append_iff.1 h
  · rw [List.length_append] at hp; omega
  · cases r with
    | nil => simp at hp
    | cons a r => cases hv; exact ⟨r, rfl, rfl⟩

theorem exists_of_append_cons_eq_append_right {p q u v : List Byte} {b : Byte} (h : u ++ v = p ++ b :: q)
    (hp : u.length ≤ p.length) : ∃ r, p = u ++ r ∧ v = r ++ b :: q := by
  obtain ⟨r, rfl, hv⟩ | ⟨r, rfl, hv⟩ := List.append_eq_append_iff.1 h
  · exact ⟨r, rfl, hv⟩
  · have hr : r = [] := List.length_eq_zero_iff.1 (by rw [List.length_append] at hp; omega)
    subst hr
    exact ⟨[], by simp, by simpa using hv.symm⟩

/-- Four bytes of which one is changed are those of another u32. -/
theorem exists_be32enc_of_changed {v : U32} {p q : List Byte} {b b' : Byte} (h : be32enc v = p ++ b :: q)
    (hb : b' ≠ b) : ∃ v', p ++ b' :: q = be32enc v' ∧ v' ≠ v := by
  have hfour : (p ++ b' :: q).length = 4 := by simpa using (congrArg List.length h).symm
  obtain ⟨v', hv'⟩ := exists_be32enc_of_length hfour
  refine ⟨v', hv', ?_⟩
  rintro rfl
  simpa [hb] using hv'.trans h

section
variable {len sum : U32} {t : TypeCode} {d p q : List Byte} {b b' : Byte}

theorem changed_in_length (h : recordOf len t d sum = p ++ b :: q) (hp : p.length < 4) (hb : b' ≠ b) :
    ∃ len', p ++ b' :: q = recordOf len' t d sum ∧ len' ≠ len := by
  obtain ⟨r, hfield, rfl⟩ := exists_of_append_cons_eq_append_left
    (u := be32enc len) (v := t.bytes ++ d ++ be32enc sum) (by simpa [recordOf] using h) hp
  obtain ⟨len', hlen', hne⟩ := exists_be32enc_of_changed hfield hb
  exact ⟨len', by simp [recordOf, ← hlen'], hne⟩

theorem changed_in_type (h : recordOf len t d sum = p ++ b :: q) (hp4 : 4 ≤ p.length) (hp8 : p.length < 8) (b' : Byte) :
    ∃ (l r : List Byte) (t' : TypeCode), t.bytes = l ++ b :: r ∧ t'.bytes = l ++ b' :: r ∧
      p ++ b' :: q = recordOf len t' d sum := by
  obtain ⟨l, rfl, hrest⟩ := exists_of_append_cons_eq_append_right
    (u := be32enc len) (v := t.bytes ++ (d ++ be32enc sum)) (by simpa [recordOf] using h) hp4
  obtain ⟨r, hfield, rfl⟩ := exists_of_append_cons_eq_append_left hrest (by simp at hp8 ⊢; omega)
  have hfour : (l ++ b' :: r).length = 4 := by simpa using (congrArg List.length hfield).symm
  obtain ⟨t', ht'⟩ := exists_bytes_of_length hfour
  exact ⟨l, r, t', hfield, ht'.symm, by simp [recordOf, ← ht']⟩

theorem changed_after_type (h : recordOf len t d sum = p ++ b :: q) (hp : 8 ≤ p.length) (hb : b' ≠ b) :
    (∃ l r, d = l ++ b :: r ∧ p ++ b' :: q = recordOf len t (l ++ b' :: r) sum) ∨
      ∃ sum', p ++ b' :: q = recordOf len t d sum' ∧ sum' ≠ sum := by
  obtain ⟨l, rfl, hrest⟩ := exists_of_append_cons_eq_append_right
    (u := be32enc len ++ t.bytes) (v := d ++ be32enc sum) (by simpa [recordOf] using h) (by simpa using hp)
  by_cases hl : l.length < d.length
  · obtain ⟨r, rfl, rfl⟩ := exists_of_append_cons_eq_append_left hrest hl
    exact .inl ⟨l, r, rfl, by simp [recordOf]⟩
  · obtain ⟨l, rfl, hfield⟩ := exists_of_append_cons_eq_append_right hrest (not_lt.1 hl)
    obtain ⟨sum', hsum', hne⟩ := exists_be32enc_of_changed hfield hb
    exact .inr ⟨sum', by simp [recordOf, ← hsum'], hne⟩

end

/-! ### Single-bit changes of a record (R242) -/

/-- A type code of which one byte is changed is letters where the new byte is one. -/
theorem TypeCode.isAlpha_of_changed {t t' : TypeCode} {l r : List Byte} {b b' : Byte} (ht : t.isAlpha = true)
    (h : t.bytes = l ++ b :: r) (h' : t'.bytes = l ++ b' :: r) : t'.isAlpha = Machine.isAlpha b' := by
  rw [TypeCode.isAlpha_eq_all, h, List.all_append, List.all_cons] at ht
  obtain ⟨hl, hr⟩ : l.all Machine.isAlpha = true ∧ r.all Machine.isAlpha = true := by
    simp only [Bool.and_eq_true] at ht
    exact ⟨ht.1, ht.2.2⟩
  rw [TypeCode.isAlpha_eq_all, h', List.all_append, List.all_cons, hl, hr, Bool.true_and, Bool.and_true]

section
variable {c : Chunk} {s p q : List Byte} {b : Byte} {k : Nat}

theorem chunkParse_flip_in_length (hs : chunkSerialize c = some s) (hsplit : s = p ++ b :: q) (hk : k < 8)
    (hp : p.length < 4) : chunkParse (p ++ (b ^^^ BitVec.twoPow 8 k) :: q) = .error .lengthMismatch := by
  obtain ⟨len, hlen, rfl⟩ := chunkSerialize_eq_some_iff.1 hs
  obtain ⟨len', hflip, hne⟩ := changed_in_length hsplit hp (xor_twoPow_ne hk b)
  rw [hflip]
  exact chunkParse_of_lengthMismatch fun hlen' => hne (BitVec.eq_of_toNat_eq (hlen'.symm.trans hlen))

theorem chunkParse_flip_in_type (ht : c.type.isAlpha = true) (hs : chunkSerialize c = some s)
    (hsplit : s = p ++ b :: q) (hk : k < 8) (hp4 : 4 ≤ p.length) (hp8 : p.length < 8) :
    chunkParse (p ++ (b ^^^ BitVec.twoPow 8 k) :: q) =
      .error (if isAlpha (b ^^^ BitVec.twoPow 8 k) = true then .checksumMismatch else .invalidType) := by
  obtain ⟨len, hlen, rfl⟩ := chunkSerialize_eq_some_iff.1 hs
  obtain ⟨l, r, t', hbytes, hbytes', hflip⟩ := changed_in_type hsplit hp4 hp8 (b ^^^ BitVec.twoPow 8 k)
  have ht' := TypeCode.isAlpha_of_changed ht hbytes hbytes'
  have hsum : crc32 (t'.bytes ++ c.data) ≠ chunkChecksum c := by
    simpa [chunkChecksum, hbytes, hbytes'] using oneBitErrorChangesTheCrc l (r ++ c.data) b k hk
  rw [hflip]
  split
  next hletter => exact chunkParse_of_checksumMismatch hlen (ht'.trans hletter) hsum
  next hletter => exact chunkParse_of_invalidType hlen (ht'.trans (Bool.eq_false_of_not_eq_true hletter))

theorem chunkParse_flip_after_type (ht : c.type.isAlpha = true) (hs : chunkSerialize c = some s)
    (hsplit : s = p ++ b :: q) (hk : k < 8) (hp : 8 ≤ p.length) :
    chunkParse (p ++ (b ^^^ BitVec.twoPow 8 k) :: q) = .error .checksumMismatch := by
  obtain ⟨len, hlen, rfl⟩ := chunkSerialize_eq_some_iff.1 hs
  obtain ⟨l, r, hdata, hflip⟩ | ⟨sum', hflip, hne⟩ := changed_after_type hsplit hp (xor_twoPow_ne hk b)
  · have hsum : crc32 (c.type.bytes ++ (l ++ (b ^^^ BitVec.twoPow 8 k) :: r)) ≠ chunkChecksum c := by
      simpa [chunkChecksum, hdata] using oneBitErrorChangesTheCrc (c.type.bytes ++ l) r b k hk
    rw [hflip]
    exact chunkParse_of_checksumMismatch (by simpa [hdata] using hlen) ht hsum
  · rw [hflip]
    exact chunkParse_of_checksumMismatch hlen ht hne.symm

end

/-- R193: bit 5 is the case of a letter, so changing it leaves a letter. -/
theorem isAlpha_xor_caseBit : ∀ b : Byte, isAlpha b = true → isAlpha (b ^^^ BitVec.twoPow 8 5) = true := by
  decide

/-- Settles O40: the flipped byte changes one field; another length is no longer the payload's, and a flip in the bytes
the checksum covers changes their CRC (R171). -/
theorem singleBitFlipOfARecordIsRejected : Obligations.SingleBitFlipOfARecordIsRejected := by
  refine ⟨fun c s p q b k ht hs hsplit hk => ⟨?_, fun hp4 hp8 hletter => ?_, fun hp4 hp8 hletter => ?_, ?_⟩,
    isAlpha_xor_caseBit⟩
  · exact chunkParse_flip_in_length hs hsplit hk
  · rw [chunkParse_flip_in_type ht hs hsplit hk hp4 hp8, if_neg (Bool.eq_false_iff.1 hletter)]
  · rw [chunkParse_flip_in_type ht hs hsplit hk hp4 hp8, if_pos hletter]
  · exact chunkParse_flip_after_type ht hs hsplit hk

end Sys2Proof.Machine

/-! SUPPORT and PROOFS. UTF-8 (44_chunk.md R224). At most one row of the table matches the start of a sequence, so
cutting characters off loses nothing; and the table, taken by the length of the character, is the arithmetic of the
encoder. -/

namespace Sys2Proof.Machine

/-! ### Rows and characters (R224) -/

/-- The bytes lie each in the row's range for it, and there are as many of them as ranges. -/
def RowMatches (row : List (Byte × Byte)) (c : List Byte) : Prop :=
  List.Forall₂ (fun r b => r.1.toNat ≤ b.toNat ∧ b.toNat ≤ r.2.toNat) row c

/-- A well-formed character: some row of the table matches it. -/
def IsUtf8Char (c : List Byte) : Prop := ∃ row ∈ utf8Rows, RowMatches row c

/-- A concatenation of characters. -/
def IsUtf8Text (d : List Byte) : Prop := ∃ cs : List (List Byte), d = cs.flatten ∧ ∀ c ∈ cs, IsUtf8Char c

theorem inRange_iff {r : Byte × Byte} {b : Byte} :
    inRange r b = true ↔ r.1.toNat ≤ b.toNat ∧ b.toNat ≤ r.2.toNat := by
  simp only [inRange, Bool.and_eq_true, decide_eq_true_eq]

theorem utf8MatchRow_cons (r : Byte × Byte) (row : List (Byte × Byte)) (b : Byte) (d : List Byte) :
    utf8MatchRow (r :: row) (b :: d) = if inRange r b then utf8MatchRow row d else none := rfl

theorem utf8MatchRow_eq_some_iff {row : List (Byte × Byte)} {d rest : List Byte} :
    utf8MatchRow row d = some rest ↔ ∃ c, d = c ++ rest ∧ RowMatches row c := by
  induction row generalizing d with
  | nil => cases d <;> simp [utf8MatchRow, RowMatches]
  | cons r row ih =>
    cases d with
    | nil => simp [utf8MatchRow, RowMatches, List.forall₂_cons_left_iff]
    | cons b d =>
      rw [utf8MatchRow_cons, Option.ite_none_right_eq_some, inRange_iff, ih]
      constructor
      · rintro ⟨hb, c, rfl, hc⟩
        exact ⟨b :: c, rfl, .cons hb hc⟩
      · rintro ⟨c, hsplit, hc⟩
        cases hc with
        | cons hb hc => cases hsplit; exact ⟨hb, _, rfl, hc⟩

/-! ### At most one row matches -/

/-- The range of a row's first byte. -/
def leadRange (row : List (Byte × Byte)) : Byte × Byte := row.headD (0, 0)

theorem utf8Rows_ne_nil : ∀ row ∈ utf8Rows, row ≠ [] := by decide

theorem leadRange_apart : ∀ row ∈ utf8Rows, ∀ row' ∈ utf8Rows, row = row' ∨
    (leadRange row).2.toNat < (leadRange row').1.toNat ∨ (leadRange row').2.toNat < (leadRange row).1.toNat := by
  decide

theorem RowMatches.leadRange_bounds {row : List (Byte × Byte)} {b : Byte} {c : List Byte}
    (h : RowMatches row (b :: c)) : (leadRange row).1.toNat ≤ b.toNat ∧ b.toNat ≤ (leadRange row).2.toNat := by
  cases h with
  | cons hb _ => exact hb

theorem IsUtf8Char.ne_nil {c : List Byte} (h : IsUtf8Char c) : c ≠ [] := by
  rintro rfl
  obtain ⟨row, hrow, hmatch⟩ := h
  exact utf8Rows_ne_nil row hrow (List.forall₂_nil_right_iff.1 hmatch)

/-- Rows that match characters with the same first byte are the same row. -/
theorem row_unique {row row' : List (Byte × Byte)} (hrow : row ∈ utf8Rows) (hrow' : row' ∈ utf8Rows) {b : Byte}
    {c c' : List Byte} (h : RowMatches row (b :: c)) (h' : RowMatches row' (b :: c')) : row = row' := by
  have hb := h.leadRange_bounds
  have hb' := h'.leadRange_bounds
  obtain heq | hlt | hlt := leadRange_apart row hrow row' hrow'
  · exact heq
  all_goals omega

/-- A sequence begins with at most one character. -/
theorem IsUtf8Char.rest_unique {c c' rest rest' : List Byte} (h : IsUtf8Char c) (h' : IsUtf8Char c')
    (heq : c ++ rest = c' ++ rest') : rest = rest' := by
  obtain ⟨b, c, rfl⟩ := List.exists_cons_of_ne_nil h.ne_nil
  obtain ⟨b', c', rfl⟩ := List.exists_cons_of_ne_nil h'.ne_nil
  obtain ⟨rfl, -⟩ := List.cons.inj heq
  obtain ⟨row, hrow, hmatch⟩ := h
  obtain ⟨row', hrow', hmatch'⟩ := h'
  obtain rfl := row_unique hrow hrow' hmatch hmatch'
  exact List.append_inj_right heq ((List.Forall₂.length_eq hmatch).symm.trans (List.Forall₂.length_eq hmatch'))

theorem utf8Next_eq_some_iff {d rest : List Byte} :
    utf8Next d = some rest ↔ ∃ c, d = c ++ rest ∧ IsUtf8Char c := by
  have hfound {rest' : List Byte} (h : utf8Next d = some rest') : ∃ c, d = c ++ rest' ∧ IsUtf8Char c := by
    obtain ⟨row, hrow, hmatch⟩ := List.exists_of_findSome?_eq_some h
    obtain ⟨c, hsplit, hc⟩ := utf8MatchRow_eq_some_iff.1 hmatch
    exact ⟨c, hsplit, row, hrow, hc⟩
  refine ⟨hfound, ?_⟩
  rintro ⟨c, hsplit, hc⟩
  obtain ⟨row, hrow, hmatch⟩ := id hc
  have hsome : (utf8Next d).isSome := List.findSome?_isSome_iff.2
    ⟨row, hrow, Option.isSome_iff_exists.2 ⟨rest, utf8MatchRow_eq_some_iff.2 ⟨c, hsplit, hmatch⟩⟩⟩
  obtain ⟨rest', hrest'⟩ := Option.isSome_iff_exists.1 hsome
  obtain ⟨c', hsplit', hc'⟩ := hfound hrest'
  rw [hrest', hc'.rest_unique hc (hsplit'.symm.trans hsplit)]

/-! ### Cutting characters off -/

theorem isUtf8Text_nil : IsUtf8Text [] := ⟨[], rfl, nofun⟩

theorem isUtf8Text_cons_iff {b : Byte} {d : List Byte} :
    IsUtf8Text (b :: d) ↔ ∃ rest, utf8Next (b :: d) = some rest ∧ IsUtf8Text rest := by
  constructor
  · rintro ⟨cs, hsplit, hcs⟩
    cases cs with
    | nil => cases hsplit
    | cons c cs =>
      obtain ⟨hc, hcs⟩ := List.forall_mem_cons.1 hcs
      exact ⟨cs.flatten, utf8Next_eq_some_iff.2 ⟨c, hsplit, hc⟩, cs, rfl, hcs⟩
  · rintro ⟨rest, hnext, cs, rfl, hcs⟩
    obtain ⟨c, hsplit, hc⟩ := utf8Next_eq_some_iff.1 hnext
    exact ⟨c :: cs, hsplit, List.forall_mem_cons.2 ⟨hc, hcs⟩⟩

/-- A character has at least one byte. -/
theorem length_lt_of_utf8Next {d rest : List Byte} (h : utf8Next d = some rest) : rest.length < d.length := by
  obtain ⟨c, rfl, hc⟩ := utf8Next_eq_some_iff.1 h
  have hpos := List.length_pos_of_ne_nil hc.ne_nil
  rw [List.length_append]
  omega

theorem utf8Go_succ_cons (n : Nat) (b : Byte) (d : List Byte) :
    utf8Go (n + 1) (b :: d) = true ↔ ∃ rest, utf8Next (b :: d) = some rest ∧ utf8Go n rest = true := by
  rw [utf8Go]
  cases utf8Next (b :: d) <;> simp

theorem utf8Go_iff {n : Nat} {d : List Byte} (h : d.length ≤ n) : utf8Go n d = true ↔ IsUtf8Text d := by
  induction n generalizing d with
  | zero =>
    cases List.length_eq_zero_iff.1 (Nat.le_zero.1 h)
    exact iff_of_true rfl isUtf8Text_nil
  | succ n ih =>
    cases d with
    | nil => exact iff_of_true rfl isUtf8Text_nil
    | cons b d =>
      rw [utf8Go_succ_cons, isUtf8Text_cons_iff]
      refine exists_congr fun rest => and_congr_right fun hnext => ih ?_
      have hlt := length_lt_of_utf8Next hnext
      omega

theorem utf8Valid_iff {d : List Byte} : utf8Valid d = true ↔ IsUtf8Text d := utf8Go_iff le_rfl

/-- Settles O41, by induction on the number of characters cut off; each is at most one row's. -/
theorem utf8ValidIsAConcatenationOfCharacters : Obligations.Utf8ValidIsAConcatenationOfCharacters :=
  ⟨fun _ => utf8Valid_iff, rfl⟩

/-! ### The table by the length of the character -/

/-- A byte value of the form `10xxxxxx`. -/
def IsContinuation (n : Nat) : Prop := 0x80 ≤ n ∧ n ≤ 0xBF

/-- R224 with the rows of one length put together: what the second byte must be depends on the first in four rows. -/
def IsCharValues : List Nat → Prop
  | [n0] => n0 ≤ 0x7F
  | [n0, n1] => (0xC2 ≤ n0 ∧ n0 ≤ 0xDF) ∧ IsContinuation n1
  | [n0, n1, n2] => (0xE0 ≤ n0 ∧ n0 ≤ 0xEF) ∧ IsContinuation n1 ∧ IsContinuation n2 ∧
      (n0 = 0xE0 → 0xA0 ≤ n1) ∧ (n0 = 0xED → n1 ≤ 0x9F)
  | [n0, n1, n2, n3] => (0xF0 ≤ n0 ∧ n0 ≤ 0xF4) ∧ IsContinuation n1 ∧ IsContinuation n2 ∧ IsContinuation n3 ∧
      (n0 = 0xF0 → 0x90 ≤ n1) ∧ (n0 = 0xF4 → n1 ≤ 0x8F)
  | _ => False

/-- By the number of bytes; arithmetic puts the rows together where several have that number. -/
theorem isUtf8Char_iff_isCharValues {c : List Byte} : IsUtf8Char c ↔ IsCharValues (c.map BitVec.toNat) := by
  match c with
  | [] | [b0] | [b0, b1] | b0 :: b1 :: b2 :: b3 :: b4 :: c =>
    simp [IsUtf8Char, RowMatches, utf8Rows, IsCharValues, IsContinuation]
  | [b0, b1, b2] | [b0, b1, b2, b3] =>
    simp [IsUtf8Char, RowMatches, utf8Rows, IsCharValues, IsContinuation]
    omega

/-! ### The values of an encoding -/

/-- The byte values of the encoding of a scalar value, by its size. -/
def encodedValues (v : Nat) : List Nat :=
  if v ≤ 0x7F then [v]
  else if v ≤ 0x7FF then [v / 64 + 0xC0, v % 64 + 0x80]
  else if v ≤ 0xFFFF then [v / 4096 + 0xE0, v / 64 % 64 + 0x80, v % 64 + 0x80]
  else [v / 262144 + 0xF0, v / 4096 % 64 + 0x80, v / 64 % 64 + 0x80, v % 64 + 0x80]

theorem isCharValues_encodedValues {v : Nat} (hv : v.isValidChar) : IsCharValues (encodedValues v) := by
  unfold encodedValues
  unfold Nat.isValidChar at hv
  split_ifs <;> simp only [IsCharValues, IsContinuation] <;> omega

theorem exists_encodedValues {ns : List Nat} (h : IsCharValues ns) : ∃ v, v.isValidChar ∧ encodedValues v = ns := by
  match ns with
  | [n0] =>
    simp only [IsCharValues] at h
    exact ⟨n0, .inl (by omega), if_pos h⟩
  | [n0, n1] =>
    simp only [IsCharValues, IsContinuation] at h
    refine ⟨(n0 - 0xC0) * 64 + (n1 - 0x80), .inl (by omega), ?_⟩
    rw [encodedValues, if_neg (by omega), if_pos (by omega)]
    simp only [List.cons.injEq, and_true]
    omega
  | [n0, n1, n2] =>
    simp only [IsCharValues, IsContinuation] at h
    refine ⟨(n0 - 0xE0) * 4096 + (n1 - 0x80) * 64 + (n2 - 0x80), by unfold Nat.isValidChar; omega, ?_⟩
    rw [encodedValues, if_neg (by omega), if_neg (by omega), if_pos (by omega)]
    simp only [List.cons.injEq, and_true]
    omega
  | [n0, n1, n2, n3] =>
    simp only [IsCharValues, IsContinuation] at h
    refine ⟨(n0 - 0xF0) * 262144 + (n1 - 0x80) * 4096 + (n2 - 0x80) * 64 + (n3 - 0x80), .inr (by omega), ?_⟩
    rw [encodedValues, if_neg (by omega), if_neg (by omega), if_neg (by omega)]
    simp only [List.cons.injEq, and_true]
    omega

/-! ### Lean's encoder -/

/-- The encoding of a character, as bytes of the model. -/
def encodedBytes (ch : Char) : List Byte := (String.utf8EncodeChar ch).map UInt8.toBitVec

theorem encodedBytes_map_toNat (ch : Char) : (encodedBytes ch).map BitVec.toNat = encodedValues ch.toNat := by
  have hv : ch.toNat.isValidChar := ch.valid
  unfold Nat.isValidChar at hv
  simp only [encodedBytes, String.utf8EncodeChar, encodedValues, Char.toNat_val]
  split_ifs <;>
    simp only [List.map_cons, List.map_nil, UInt8.toBitVec_ofNat', BitVec.toNat_ofNat, List.cons.injEq, and_true] <;>
    omega

theorem exists_char_of_isValidChar {v : Nat} (hv : v.isValidChar) : ∃ ch : Char, ch.toNat = v :=
  ⟨Char.ofNatAux v hv, rfl⟩

/-- The characters of the table are the encodings of the characters of Unicode (G4). -/
theorem isUtf8Char_iff_exists_encodedBytes {c : List Byte} : IsUtf8Char c ↔ ∃ ch, encodedBytes ch = c := by
  rw [isUtf8Char_iff_isCharValues]
  constructor
  · intro h
    obtain ⟨v, hv, hvalues⟩ := exists_encodedValues h
    obtain ⟨ch, rfl⟩ := exists_char_of_isValidChar hv
    have hinj := List.map_injective_iff.2 fun (_ _ : Byte) => BitVec.eq_of_toNat_eq
    exact ⟨ch, hinj ((encodedBytes_map_toNat ch).trans hvalues)⟩
  · rintro ⟨ch, rfl⟩
    exact encodedBytes_map_toNat ch ▸ isCharValues_encodedValues ch.valid

theorem flatten_map_encodedBytes (chs : List Char) :
    (chs.map encodedBytes).flatten = (chs.flatMap String.utf8EncodeChar).map UInt8.toBitVec := by
  rw [List.map_flatMap, List.flatMap_def]
  rfl

/-- Settles O42: valid is a concatenation of characters of the table, and those are the encodings of scalar values. -/
theorem utf8ValidIsTheEncodingOfCharacters : Obligations.Utf8ValidIsTheEncodingOfCharacters := by
  intro d
  rw [utf8Valid_iff]
  constructor
  · rintro ⟨cs, rfl, hcs⟩
    obtain ⟨chs, rfl⟩ : cs ∈ Set.range (List.map encodedBytes) := by
      rw [Set.range_list_map]
      exact fun c hc => isUtf8Char_iff_exists_encodedBytes.1 (hcs c hc)
    exact ⟨chs, flatten_map_encodedBytes chs⟩
  · rintro ⟨chs, rfl⟩
    refine ⟨chs.map encodedBytes, (flatten_map_encodedBytes chs).symm, List.forall_mem_map.2 fun ch _ => ?_⟩
    exact isUtf8Char_iff_exists_encodedBytes.2 ⟨ch, rfl⟩

end Sys2Proof.Machine

/-! SUPPORT and PROOFS. The commands of the chunk framer (44_chunk.md section 2), each the end of its body: how a write to
`K` ends, and then what `K` yields. -/

namespace Sys2Proof.Machine

/-! ### How a write to `K` ends (R28, R313) -/

section
variable {s : State} {c k : Chunk}

theorem settle_putK_of_fits (hfits : c.data.length ≤ s.caps.payload.val) :
    settle s (putK s c) = .next { s with K := some c, S := 0x00 } := by
  rw [putK, if_pos (payloadFits_iff.2 hfits)]
  rfl

theorem settle_putK_of_overflow (hflt : s.FLT = 0) (hover : s.caps.payload.val < c.data.length) :
    settle s (putK s c) = .next { s with S := 0x82, FLT := 0b100 } := by
  rw [putK, if_neg fun hfits => absurd (payloadFits_iff.1 hfits) (not_le.2 hover), settle_fault,
    State.takeFault_of_running _ hflt]
  rfl

/-! ### The commands on what `K` holds -/

theorem exec_chNew_of_some {t : TypeCode} (hflt : s.FLT = 0) (hT : s.T = some t) :
    exec .chNew s = settle s (putK s ⟨t, s.I⟩) := by
  rw [exec_chNew hflt, needT_of_some hT]
  rfl

theorem exec_chLen_of_some {len : U32} (hflt : s.FLT = 0) (hK : s.K = some k) (hlen : chunkLength k = some len) :
    exec .chLen s = .next { s with R := len, S := 0x00 } := by
  rw [exec_chLen hflt, needK_of_some hK, hlen]
  exact settle_putR len

theorem exec_chData_of_some (hflt : s.FLT = 0) (hK : s.K = some k) :
    exec .chData s = settle s (appendO s k.data) := by
  rw [exec_chData hflt, needK_of_some hK]

theorem exec_chText_of_utf8 (hflt : s.FLT = 0) (hK : s.K = some k) (hutf8 : utf8Valid k.data = true) :
    exec .chText s = settle s (appendO s k.data) := by
  rw [exec_chText hflt, needK_of_some hK, chunkPayloadAsText, if_pos hutf8]

theorem exec_chText_of_notUtf8 (hflt : s.FLT = 0) (hK : s.K = some k) (hutf8 : utf8Valid k.data = false) :
    exec .chText s = .next { s with S := 0x09 } := by
  rw [exec_chText hflt, needK_of_some hK, chunkPayloadAsText, if_neg (Bool.eq_false_iff.1 hutf8)]
  rfl

theorem exec_chSer_of_some {out : List Byte} (hflt : s.FLT = 0) (hK : s.K = some k)
    (hout : chunkSerialize k = some out) : exec .chSer s = settle s (appendO s out) := by
  rw [exec_chSer hflt, needK_of_some hK, hout]

theorem exec_chParse_of_error {e : FailKind} (hflt : s.FLT = 0) (hparse : chunkParse s.I = .error e) :
    exec .chParse s = .next { s with S := failCode e } := by
  rw [exec_chParse hflt, hparse]
  rfl

theorem exec_chParse_of_ok (hflt : s.FLT = 0) (hparse : chunkParse s.I = .ok c) :
    exec .chParse s = settle s (putK s c) := by
  rw [exec_chParse hflt, hparse]

end

/-- R221, U1: a payload of at most `LEN_MAX` bytes has its length as a u32. -/
theorem exists_toNat_eq_of_le_lenMax {n : Nat} (h : n ≤ lenMax) : ∃ len : U32, n = len.toNat :=
  ⟨BitVec.ofNatLT n (Nat.lt_succ_of_le h), rfl⟩

theorem exists_chunkSerialize_of_le_lenMax {k : Chunk} (h : k.data.length ≤ lenMax) : ∃ len : U32,
    k.data.length = len.toNat ∧ chunkSerialize k = some (recordOf len k.type k.data (chunkChecksum k)) := by
  obtain ⟨len, hlen⟩ := exists_toNat_eq_of_le_lenMax h
  exact ⟨len, hlen, chunkSerialize_eq_some_iff.2 ⟨len, hlen, rfl⟩⟩

/-! ### The obligations -/

/-- Settles O32: the body is one write to `K`. -/
theorem chNewMakesAChunk : Obligations.ChNewMakesAChunk :=
  ⟨plainEncoding_opcodeOf (i := .chNew) rfl,
    fun _ _ hflt hT hfits => (exec_chNew_of_some hflt hT).trans (settle_putK_of_fits hfits),
    fun _ _ hflt hT hover => (exec_chNew_of_some hflt hT).trans (settle_putK_of_overflow hflt hover),
    fun _ hflt hT => (exec_chNew hflt).trans (settle_needT_of_none hflt hT)⟩

/-- The commands of R231 to R233 look at `K` first. -/
theorem exists_exec_eq_needK : ∀ i ∈ [Instr.chLen, .chCrc, .chType],
    ∃ f : State → Chunk → Ending, ∀ s : State, s.FLT = 0 → exec i s = settle s (needK s (f s)) := by
  simp only [List.forall_mem_cons]
  exact ⟨⟨_, fun _ => exec_chLen⟩, ⟨_, fun _ => exec_chCrc⟩, ⟨_, fun _ => exec_chType⟩, nofun⟩

/-- Settles O33: each body reads `K` and makes one write; the length is a u32 because it is at most `LEN_MAX`. -/
theorem chLenChCrcAndChType : Obligations.ChLenChCrcAndChType := by
  refine ⟨⟨plainEncoding_opcodeOf (i := .chLen) rfl, plainEncoding_opcodeOf (i := .chCrc) rfl,
    plainEncoding_opcodeOf (i := .chType) rfl⟩, fun k s hflt hK hle => ?len, fun k s hflt hK => ?crc,
    fun k s hflt hK => ?type, fun s hflt hK i hi => ?empty⟩
  case len =>
    obtain ⟨len, hlen⟩ := exists_toNat_eq_of_le_lenMax hle
    exact ⟨len, hlen.symm, exec_chLen_of_some hflt hK (chunkLength_eq_some_iff.2 hlen)⟩
  case crc => rw [exec_chCrc hflt, needK_of_some hK, settle_putR]; rfl
  case type => rw [exec_chType hflt, needK_of_some hK]; rfl
  case empty =>
    obtain ⟨f, hf⟩ := exists_exec_eq_needK i hi
    exact (hf s hflt).trans (settle_needK_of_none hflt hK)

/-- Settles O34: the body is one append of the payload. -/
theorem chDataAppendsThePayload : Obligations.ChDataAppendsThePayload :=
  ⟨plainEncoding_opcodeOf (i := .chData) rfl,
    fun _ _ hflt hK hroom => (exec_chData_of_some hflt hK).trans (settle_appendO_of_room hroom),
    fun _ _ hflt hK hfull => (exec_chData_of_some hflt hK).trans (settle_appendO_of_full hflt hfull),
    fun _ hflt hK => (exec_chData hflt).trans (settle_needK_of_none hflt hK)⟩

/-- Settles O35: the body is `CH.DATA`'s behind the test of the text (R322). -/
theorem chTextAppendsUtf8Only : Obligations.ChTextAppendsUtf8Only :=
  ⟨plainEncoding_opcodeOf (i := .chText) rfl,
    fun _ _ hflt hK hutf8 hroom => (exec_chText_of_utf8 hflt hK hutf8).trans (settle_appendO_of_room hroom),
    fun _ _ hflt hK hutf8 => exec_chText_of_notUtf8 hflt hK hutf8,
    fun _ _ hflt hK hutf8 hfull => (exec_chText_of_utf8 hflt hK hutf8).trans (settle_appendO_of_full hflt hfull),
    fun _ hflt hK => (exec_chText hflt).trans (settle_needK_of_none hflt hK)⟩

/-- Settles O36: the body is one append of the record, which is 12 bytes longer than the payload. -/
theorem chSerAppendsTheRecord : Obligations.ChSerAppendsTheRecord := by
  refine ⟨plainEncoding_opcodeOf (i := .chSer) rfl, fun k s hflt hK hle hroom => ?room,
    fun k s hflt hK hle hfull => ?full, fun s hflt hK => (exec_chSer hflt).trans (settle_needK_of_none hflt hK)⟩
  case room =>
    obtain ⟨len, hlen, hout⟩ := exists_chunkSerialize_of_le_lenMax hle
    exact ⟨len, hlen.symm, (exec_chSer_of_some hflt hK hout).trans
      (settle_appendO_of_room (by rwa [recordOf_length]))⟩
  case full =>
    obtain ⟨len, -, hout⟩ := exists_chunkSerialize_of_le_lenMax hle
    exact (exec_chSer_of_some hflt hK hout).trans (settle_appendO_of_full hflt (by rwa [recordOf_length]))

/-- Settles O37: `I` is the record of the four fields, on which the parse is the tests in order; then a write to `K`. -/
theorem chParseMakesFourChecksInOrder : Obligations.ChParseMakesFourChecksInOrder := by
  refine ⟨plainEncoding_opcodeOf (i := .chParse) rfl,
    fun s hflt hshort => exec_chParse_of_error hflt (chunkParse_of_short hshort), fun s len sum t d hflt hI => ?_⟩
  have hparse {r : Except FailKind Chunk} (h : chunkParse (recordOf len t d sum) = r) : chunkParse s.I = r := hI ▸ h
  refine ⟨fun hlen => ?lengthMismatch, fun hlen ht => ?invalidType, fun hlen ht hsum => ?checksumMismatch,
    fun hlen ht hsum hover => ?overflow, fun hlen ht hsum hfits => ?good⟩
  case lengthMismatch => exact exec_chParse_of_error hflt (hparse (chunkParse_of_lengthMismatch hlen))
  case invalidType => exact exec_chParse_of_error hflt (hparse (chunkParse_of_invalidType hlen ht))
  case checksumMismatch => exact exec_chParse_of_error hflt (hparse (chunkParse_of_checksumMismatch hlen ht hsum))
  case overflow =>
    exact (exec_chParse_of_ok hflt (hparse (chunkParse_of_good hlen ht hsum))).trans
      (settle_putK_of_overflow hflt hover)
  case good =>
    exact (exec_chParse_of_ok hflt (hparse (chunkParse_of_good hlen ht hsum))).trans (settle_putK_of_fits hfits)

end Sys2Proof.Machine

/-! SUPPORT and PROOFS. Streams of containers (45_container.md sections 1 and 3). The bound on the rounds of the loop is
taken away once; what is left is how `containerParse` goes on after the signature, one law for each way the bytes can
begin, and an induction over the records of a stream. -/

namespace Sys2Proof.Machine

/-! ### The signature (R262) -/

theorem containerParse_of_badSignature {s : List Byte} (h : s.length < 8 ∨ s.take 8 ≠ sig) :
    containerParse s = .error .badSignature := if_pos h

/-- R262: beyond the number of bytes, the bound on the rounds is of no effect (log entry 12). -/
theorem parseRecords_succ_of_le {n : Nat} {s : List Byte} (h : s.length ≤ n) :
    parseRecords (n + 1) s = parseRecords n s := by
  induction n generalizing s with
  | zero =>
    rw [List.length_eq_zero_iff.1 (Nat.le_zero.1 h)]
    rfl
  | succ n ih =>
    cases s with
    | nil => rfl
    | cons b s =>
      have hrest (len : U32) : parseRecords (n + 1) ((b :: s).drop (12 + len.toNat)) =
          parseRecords n ((b :: s).drop (12 + len.toNat)) := ih (by simp at h ⊢; omega)
      simp only [parseRecords, hrest]

theorem parseRecords_of_le {n : Nat} {s : List Byte} (h : s.length ≤ n) :
    parseRecords n s = parseRecords s.length s := by
  induction n, h using Nat.le_induction with
  | base => rfl
  | succ n hn ih => rw [parseRecords_succ_of_le hn, ih]

/-- R262: after the signature the records are parsed, with any bound that is at least the number of bytes. -/
theorem containerParse_sig_append {n : Nat} {s : List Byte} (h : s.length ≤ n) :
    containerParse (sig ++ s) = parseRecords n s := by
  have hlong : ¬ ((sig ++ s).length < 8 ∨ memRead (sig ++ s) 0 8 ≠ sig) := by
    rw [List.length_append, not_or, not_not]
    exact ⟨not_lt.2 (Nat.le_add_right 8 _), rfl⟩
  have hdrop : (sig ++ s).drop 8 = s := rfl
  rw [containerParse, if_neg hlong, hdrop, parseRecords_of_le h, parseRecords_of_le]
  exact (List.sublist_append_right ..).length_le

theorem badSignature_or_exists_sig_append (s : List Byte) :
    (s.length < 8 ∨ s.take 8 ≠ sig) ∨ ∃ rs, s = sig ++ rs := by
  refine or_iff_not_imp_left.2 fun hsig => ⟨s.drop 8, ?_⟩
  obtain ⟨-, htake⟩ := not_or.1 hsig
  rw [← not_not.1 htake, List.take_append_drop]

/-! ### One law for each way the records can begin (R262) -/

theorem containerParse_sig : containerParse sig = .ok [] := rfl

theorem parseRecords_of_noLength {n : Nat} {s : List Byte} (hpos : 0 < s.length) (hlt : s.length < 4) :
    parseRecords (n + 1) s = .error .truncated := by
  cases s with
  | nil => cases hpos
  | cons b s => simp only [parseRecords, fieldAt_eq_none_of_lt hlt]

theorem containerParse_of_noLength {s : List Byte} (hpos : 0 < s.length) (hlt : s.length < 4) :
    containerParse (sig ++ s) = .error .truncated :=
  (containerParse_sig_append (Nat.le_succ _)).trans (parseRecords_of_noLength hpos hlt)

section
variable {len : U32} {r : List Byte}

theorem fieldAt_zero_be32enc_append (len : U32) (s : List Byte) : fieldAt (be32enc len ++ s) 0 = some len :=
  fieldAt_of_eq_append (p := []) rfl rfl

/-- R262: one turn of the loop, where there is a length field to read. -/
theorem parseRecords_succ_of_field {n : Nat} {s : List Byte} (hfield : fieldAt s 0 = some len) :
    parseRecords (n + 1) s = if s.length < 12 + len.toNat then .error .truncated
      else (chunkParse (memRead s 0 (12 + len.toNat))).bind fun c =>
        (parseRecords n (s.drop (12 + len.toNat))).map fun q => c :: q := by
  cases s with
  | nil => cases hfield
  | cons b s =>
    simp only [parseRecords, hfield]
    cases chunkParse (memRead (b :: s) 0 (12 + len.toNat)) with
    | error k => rfl
    | ok c => cases parseRecords n ((b :: s).drop (12 + len.toNat)) <;> rfl

theorem containerParse_of_cutShort {s : List Byte} (h : (be32enc len ++ s).length < 12 + len.toNat) :
    containerParse (sig ++ (be32enc len ++ s)) = .error .truncated := by
  rw [containerParse_sig_append (Nat.le_succ _), parseRecords_succ_of_field (fieldAt_zero_be32enc_append len s),
    if_pos h]

/-- R262: a whole record is parsed, and what it parses to comes before the parse of what follows. -/
theorem containerParse_record_append {s : List Byte} (h : (be32enc len ++ r).length = 12 + len.toNat) :
    containerParse (sig ++ (be32enc len ++ r ++ s)) =
      (chunkParse (be32enc len ++ r)).bind fun c => (containerParse (sig ++ s)).map fun q => c :: q := by
  have hfield : fieldAt (be32enc len ++ r ++ s) 0 = some len := by
    rw [List.append_assoc]
    exact fieldAt_zero_be32enc_append len (r ++ s)
  have hwhole : ¬ (be32enc len ++ r ++ s).length < 12 + len.toNat := by
    rw [List.length_append, h]
    exact not_lt.2 (Nat.le_add_right _ _)
  have hread : memRead (be32enc len ++ r ++ s) 0 (12 + len.toNat) = be32enc len ++ r :=
    memRead_of_eq_append (p := []) rfl rfl h
  have hrest : s.length ≤ (be32enc len ++ r ++ s).length := (List.sublist_append_right ..).length_le
  rw [containerParse_sig_append (Nat.le_succ _), containerParse_sig_append hrest, parseRecords_succ_of_field hfield,
    if_neg hwhole, hread, List.drop_left' h]

theorem containerParse_of_badRecord {s : List Byte} {k : FailKind} (h : (be32enc len ++ r).length = 12 + len.toNat)
    (hparse : chunkParse (be32enc len ++ r) = .error k) :
    containerParse (sig ++ (be32enc len ++ r ++ s)) = .error k := by
  rw [containerParse_record_append h, hparse]
  rfl

theorem containerParse_of_goodRecord {s : List Byte} {c : Chunk} (h : (be32enc len ++ r).length = 12 + len.toNat)
    (hparse : chunkParse (be32enc len ++ r) = .ok c) :
    containerParse (sig ++ (be32enc len ++ r ++ s)) = (containerParse (sig ++ s)).map fun q => c :: q := by
  rw [containerParse_record_append h, hparse]
  rfl

end

/-- Settles O45: the loop's bound is of no effect, and each way the bytes can begin is one turn of it. -/
theorem containerParseGoesRecordByRecord : Obligations.ContainerParseGoesRecordByRecord :=
  ⟨fun _ => containerParse_of_badSignature, containerParse_sig, fun _ => containerParse_of_noLength,
    fun _ _ => containerParse_of_cutShort, fun _ _ _ _ => containerParse_of_badRecord,
    fun _ _ _ _ => containerParse_of_goodRecord⟩

/-! ### Induction over the records of a stream -/

/-- The four ways the bytes after the signature can begin (R262): there are none, or too few for a length, or fewer than
their length asks for, or a whole record. -/
theorem record_cases (s : List Byte) : s = [] ∨ (0 < s.length ∧ s.length < 4) ∨
    (∃ (len : U32) (r : List Byte), s = be32enc len ++ r ∧ s.length < 12 + len.toNat) ∨
    ∃ (len : U32) (r rest : List Byte), s = be32enc len ++ r ++ rest ∧
      (be32enc len ++ r).length = 12 + len.toNat := by
  obtain rfl | hne := eq_or_ne s []
  · exact .inl rfl
  obtain hlt | hge := lt_or_ge s.length 4
  · exact .inr (.inl ⟨List.length_pos_iff.2 hne, hlt⟩)
  obtain ⟨len, hlen⟩ := exists_be32enc_of_length (bs := s.take 4) (by simpa using hge)
  have hs : s = be32enc len ++ s.drop 4 := by rw [← hlen, List.take_append_drop]
  obtain hlt | hge := lt_or_ge s.length (12 + len.toNat)
  · exact .inr (.inr (.inl ⟨len, s.drop 4, hs, hlt⟩))
  · refine .inr (.inr (.inr ⟨len, (s.drop 4).take (8 + len.toNat), (s.drop 4).drop (8 + len.toNat), ?_, ?_⟩))
    · rw [List.append_assoc, List.take_append_drop, ← hs]
    · simp only [List.length_append, be32enc_length, List.length_take, List.length_drop]
      omega

/-- R262: the records of a stream are taken off its front one by one, until none is left or no whole one begins it. -/
theorem records_induction {motive : List Byte → Prop} (nil : motive [])
    (noLength : ∀ s : List Byte, 0 < s.length → s.length < 4 → motive s)
    (cutShort : ∀ (len : U32) (r : List Byte), (be32enc len ++ r).length < 12 + len.toNat → motive (be32enc len ++ r))
    (record : ∀ (len : U32) (r rest : List Byte), (be32enc len ++ r).length = 12 + len.toNat → motive rest →
      motive (be32enc len ++ r ++ rest)) (s : List Byte) : motive s := by
  obtain rfl | ⟨hpos, hlt⟩ | ⟨len, r, rfl, hlt⟩ | ⟨len, r, rest, hs, hlen⟩ := record_cases s
  · exact nil
  · exact noLength s hpos hlt
  · exact cutShort len r hlt
  · have hshorter : rest.length < s.length := by
      rw [hs, List.length_append, hlen]
      omega
    exact hs ▸ record len r rest hlen (records_induction nil noLength cutShort record rest)
termination_by s.length

/-! ### Serialising (R261) -/

theorem serializeRecords_cons {c : Chunk} {q : List Chunk} {r rs : List Byte} (hr : chunkSerialize c = some r)
    (hrs : serializeRecords q = some rs) : serializeRecords (c :: q) = some (r ++ rs) := by
  rw [serializeRecords, hr, hrs]

theorem containerSerialize_eq_some_iff {q : List Chunk} {s : List Byte} :
    containerSerialize q = some s ↔ ∃ rs, serializeRecords q = some rs ∧ s = sig ++ rs := by
  constructor
  · exact containerSerialize_eq_some
  · rintro ⟨rs, hrs, rfl⟩
    rw [containerSerialize, hrs]

/-! ### Parsing is serialising read backward (R280, R281) -/

theorem exists_of_bind_map_cons_eq_ok {a : Except FailKind Chunk} {b : Except FailKind (List Chunk)} {q : List Chunk}
    (h : (a.bind fun c => b.map fun q => c :: q) = .ok q) : ∃ c q', a = .ok c ∧ b = .ok q' ∧ q = c :: q' := by
  cases a with
  | error k => cases h
  | ok c => cases b with
    | error k => cases h
    | ok q' => cases h; exact ⟨c, q', rfl, rfl, rfl⟩

theorem serializeRecords_of_parse_eq_ok {s : List Byte} {q : List Chunk} (h : containerParse (sig ++ s) = .ok q) :
    serializeRecords q = some s := by
  induction s using records_induction generalizing q with
  | nil => cases h; rfl
  | noLength s hpos hlt => cases (containerParse_of_noLength hpos hlt).symm.trans h
  | cutShort len r hlt => cases (containerParse_of_cutShort hlt).symm.trans h
  | record len r rest hlen ih =>
    rw [containerParse_record_append hlen] at h
    obtain ⟨c, q', hc, hq', rfl⟩ := exists_of_bind_map_cons_eq_ok h
    obtain ⟨-, hser⟩ := chunkSerialize_of_chunkParse_eq_ok hc
    exact serializeRecords_cons hser (ih hq')

theorem containerSerialize_of_parse_eq_ok {s : List Byte} {q : List Chunk} (h : containerParse s = .ok q) :
    containerSerialize q = some s := by
  obtain hbad | ⟨rs, rfl⟩ := badSignature_or_exists_sig_append s
  · cases (containerParse_of_badSignature hbad).symm.trans h
  · exact containerSerialize_eq_some_iff.2 ⟨rs, serializeRecords_of_parse_eq_ok h, rfl⟩

theorem containerParse_of_serializeRecords {q : List Chunk} {rs : List Byte} (hq : ∀ c ∈ q, c.type.isAlpha = true)
    (h : serializeRecords q = some rs) : containerParse (sig ++ rs) = .ok q := by
  induction q generalizing rs with
  | nil => cases h; rfl
  | cons c q ih =>
    obtain ⟨hc, hq⟩ := List.forall_mem_cons.1 hq
    obtain ⟨r, rs, hr, hrs, rfl⟩ := serializeRecords_cons_eq_some h
    have hparse := chunkParse_of_chunkSerialize hc hr
    obtain ⟨len, hlen, rfl⟩ := chunkSerialize_eq_some_iff.1 hr
    have hrecord : recordOf len c.type c.data (chunkChecksum c) =
      be32enc len ++ (c.type.bytes ++ c.data ++ be32enc (chunkChecksum c)) := by simp [recordOf]
    rw [hrecord] at hparse ⊢
    rw [containerParse_of_goodRecord (by rw [← hrecord, recordOf_length, hlen]) hparse, ih hq hrs]
    rfl

/-- Settles O54: one direction is the induction over the records, the other an induction on the container. -/
theorem containerParseAndSerializeAgree : Obligations.ContainerParseAndSerializeAgree := by
  refine fun s q => ⟨fun h => ⟨containerParse_isAlpha h, containerSerialize_of_parse_eq_ok h⟩, fun ⟨hq, h⟩ => ?_⟩
  obtain ⟨rs, hrs, rfl⟩ := containerSerialize_eq_some_iff.1 h
  exact containerParse_of_serializeRecords hq hrs

/-! ### No record has the wrong length (R284) -/

/-- The loop hands the parse of a chunk exactly the bytes its length field asks for, so check (b) passes. -/
theorem chunkParse_whole_ne_lengthMismatch {len : U32} {r : List Byte}
    (h : (be32enc len ++ r).length = 12 + len.toNat) : chunkParse (be32enc len ++ r) ≠ .error .lengthMismatch := by
  obtain ⟨len', t, d, sum, hrecord⟩ := exists_recordOf_of_length (s := be32enc len ++ r) (by omega)
  have hfield : fieldAt (be32enc len ++ r) 0 = some len' := hrecord ▸ fieldAt_zero_recordOf
  obtain rfl : len = len' := Option.some.inj ((fieldAt_zero_be32enc_append len r).symm.trans hfield)
  have hlen : d.length = len.toNat := by
    rw [hrecord, recordOf_length] at h
    exact Nat.add_left_cancel h
  rw [hrecord, chunkParse_recordOf, if_neg (not_not.2 hlen)]
  split_ifs <;> nofun

theorem containerParse_sig_append_ne_lengthMismatch (s : List Byte) :
    containerParse (sig ++ s) ≠ .error .lengthMismatch := by
  induction s using records_induction with
  | nil => nofun
  | noLength s hpos hlt => rw [containerParse_of_noLength hpos hlt]; nofun
  | cutShort len r hlt => rw [containerParse_of_cutShort hlt]; nofun
  | record len r rest hlen ih =>
    cases hparse : chunkParse (be32enc len ++ r) with
    | error k =>
      rw [containerParse_of_badRecord hlen hparse]
      exact fun h => chunkParse_whole_ne_lengthMismatch hlen (by rw [hparse, Except.error.inj h])
    | ok c =>
      rw [containerParse_of_goodRecord hlen hparse]
      cases hrest : containerParse (sig ++ rest) with
      | error k => exact fun h => ih (hrest.trans (congrArg _ (Except.error.inj h)))
      | ok q => nofun

theorem containerParse_ne_lengthMismatch (s : List Byte) : containerParse s ≠ .error .lengthMismatch := by
  obtain hbad | ⟨rs, rfl⟩ := badSignature_or_exists_sig_append s
  · rw [containerParse_of_badSignature hbad]
    nofun
  · exact containerParse_sig_append_ne_lengthMismatch rs

end Sys2Proof.Machine

/-! SUPPORT and PROOFS. Searching a container (45_container.md section 1). A container has no chunk of the type sought,
or it has one of least index with a part before it and a part after it; find and remove are said once for each case. -/

namespace Sys2Proof.Machine

/-! ### The chunk of least index (R264) -/

theorem typeMatches_iff {code : List Byte} {c : Chunk} : typeMatches code c = true ↔ c.type.bytes = code := beq_iff_eq

theorem containerFind_eq_find? (q : List Chunk) (code : List Byte) :
    containerFind q code = q.find? (typeMatches code) := by
  induction q with
  | nil => rfl
  | cons d q ih =>
    rw [containerFind, ih, List.find?_cons]
    cases typeMatches code d <;> rfl

theorem absent_or_exists_first (q : List Chunk) (code : List Byte) : (∀ d ∈ q, d.type.bytes ≠ code) ∨
    ∃ pre c post, q = pre ++ c :: post ∧ c.type.bytes = code ∧ ∀ d ∈ pre, d.type.bytes ≠ code := by
  cases hfind : q.find? (typeMatches code) with
  | none => exact .inl fun d hd hcode => List.find?_eq_none.1 hfind d hd (typeMatches_iff.2 hcode)
  | some c =>
    obtain ⟨hc, pre, post, rfl, hpre⟩ := List.find?_eq_some_iff_append.1 hfind
    exact .inr ⟨pre, c, post, rfl, typeMatches_iff.1 hc, fun d hd hcode => by
      simpa [typeMatches_iff.2 hcode] using hpre d hd⟩

/-- R264: a code of another length matches nothing. -/
theorem absent_of_length_ne {code : List Byte} (h : code.length ≠ 4) (q : List Chunk) :
    ∀ d ∈ q, d.type.bytes ≠ code :=
  fun d _ hcode => h (hcode ▸ d.type.bytes_length)

section
variable {q pre post : List Chunk} {c : Chunk} {code : List Byte}

theorem containerFind_of_absent (h : ∀ d ∈ q, d.type.bytes ≠ code) : containerFind q code = none := by
  rw [containerFind_eq_find?, List.find?_eq_none]
  exact fun d hd hmatch => h d hd (typeMatches_iff.1 hmatch)

theorem containerFind_append_of_absent (h : ∀ d ∈ pre, d.type.bytes ≠ code) :
    containerFind (pre ++ q) code = containerFind q code := by
  rw [containerFind_eq_find?, List.find?_append, ← containerFind_eq_find?, containerFind_of_absent h,
    ← containerFind_eq_find?, Option.none_or]

theorem containerFind_of_first (hc : c.type.bytes = code) (hpre : ∀ d ∈ pre, d.type.bytes ≠ code) :
    containerFind (pre ++ c :: post) code = some c := by
  rw [containerFind_append_of_absent hpre, containerFind, if_pos (typeMatches_iff.2 hc)]

theorem containerRemove_of_absent (h : ∀ d ∈ q, d.type.bytes ≠ code) : containerRemove q code = none := by
  induction q with
  | nil => rfl
  | cons d q ih =>
    obtain ⟨hd, hq⟩ := List.forall_mem_cons.1 h
    rw [containerRemove, if_neg fun hmatch => hd (typeMatches_iff.1 hmatch), ih hq]

theorem containerRemove_of_first (hc : c.type.bytes = code) (hpre : ∀ d ∈ pre, d.type.bytes ≠ code) :
    containerRemove (pre ++ c :: post) code = some (c, pre ++ post) := by
  induction pre with
  | nil => exact if_pos (typeMatches_iff.2 hc)
  | cons d pre ih =>
    obtain ⟨hd, hpre⟩ := List.forall_mem_cons.1 hpre
    rw [List.cons_append, containerRemove, if_neg fun hmatch => hd (typeMatches_iff.1 hmatch), ih hpre,
      List.cons_append]

theorem containerRemove_eq_some_iff {rest : List Chunk} : containerRemove q code = some (c, rest) ↔
    ∃ pre post, q = pre ++ c :: post ∧ c.type.bytes = code ∧ (∀ d ∈ pre, d.type.bytes ≠ code) ∧
      rest = pre ++ post := by
  constructor
  · intro h
    obtain habsent | ⟨pre, d, post, rfl, hd, hpre⟩ := absent_or_exists_first q code
    · cases (containerRemove_of_absent habsent).symm.trans h
    · cases (containerRemove_of_first hd hpre).symm.trans h
      exact ⟨pre, post, rfl, hd, hpre, rfl⟩
  · rintro ⟨pre, post, rfl, hc, hpre, rfl⟩
    exact containerRemove_of_first hc hpre

theorem containerRemove_eq_none_iff : containerRemove q code = none ↔ ∀ d ∈ q, d.type.bytes ≠ code := by
  refine ⟨fun h => ?_, containerRemove_of_absent⟩
  obtain habsent | ⟨pre, d, post, rfl, hd, hpre⟩ := absent_or_exists_first q code
  · exact habsent
  · cases (containerRemove_of_first hd hpre).symm.trans h

theorem containerFind_eq_map_remove (q : List Chunk) (code : List Byte) :
    containerFind q code = (containerRemove q code).map fun r => r.1 := by
  obtain habsent | ⟨pre, d, post, rfl, hd, hpre⟩ := absent_or_exists_first q code
  · rw [containerFind_of_absent habsent, containerRemove_of_absent habsent, Option.map_none]
  · rw [containerFind_of_first hd hpre, containerRemove_of_first hd hpre, Option.map_some]

/-- R282: an appended chunk comes after every chunk that was there. -/
theorem containerFind_append_of_some {k : Chunk} (h : containerFind q code = some c) :
    containerFind (containerAppend q k) code = some c := by
  rw [containerFind_eq_find?] at h ⊢
  rw [containerAppend, List.find?_append, h, Option.some_or]

end

/-- Settles O51: find and remove agree in both cases, a chunk of least index or none. -/
theorem removeTakesTheLeastIndexOnly : Obligations.RemoveTakesTheLeastIndexOnly :=
  fun q code => ⟨fun _ _ => containerRemove_eq_some_iff, containerRemove_eq_none_iff,
    containerFind_eq_map_remove q code, fun hlen => containerRemove_of_absent (absent_of_length_ne hlen q)⟩

end Sys2Proof.Machine

/-! SUPPORT and PROOFS. The commands of the container (45_container.md sections 2 and 3), each the end of its body on
what `P` holds, and the round trips made of them. -/

namespace Sys2Proof.Machine

/-! ### How a command that finds no room or no container ends (R312, R313) -/

section
variable {s : State} {q : List Chunk}

theorem settle_capacity (hflt : s.FLT = 0) :
    settle s (.fault .capacity) = .next { s with S := 0x82, FLT := 0b100 } := by
  rw [settle_fault, State.takeFault_of_running _ hflt]
  rfl

theorem settle_needP_of_none {f : List Chunk → Ending} (hflt : s.FLT = 0) (hP : s.P = none) :
    settle s (needP s f) = .next { s with S := 0x81, FLT := 0b010 } := by
  rw [needP_of_none hP, settle_emptyOperand hflt]

/-! ### `CT.PARSE` (R271) -/

theorem containerFits_iff {caps : Capacities} : containerFits caps q = true ↔
    withinCap caps.chunks q.length = true ∧ ∀ c ∈ q, c.data.length ≤ caps.payload.val := by
  simp only [containerFits, Bool.and_eq_true, List.all_eq_true, payloadFits_iff]

theorem not_containerFits {caps : Capacities}
    (h : withinCap caps.chunks q.length = false ∨ ∃ c ∈ q, caps.payload.val < c.data.length) :
    ¬ containerFits caps q = true := by
  rw [containerFits_iff]
  rintro ⟨hcount, hpayloads⟩
  obtain hcount' | ⟨c, hc, hover⟩ := h
  · exact Bool.false_ne_true (hcount'.symm.trans hcount)
  · exact absurd (hpayloads c hc) (not_le.2 hover)

theorem exec_ctParse_of_error {k : FailKind} (hflt : s.FLT = 0) (hparse : containerParse s.I = .error k) :
    exec .ctParse s = .next { s with S := failCode k } := by
  rw [exec_ctParse hflt, hparse]
  rfl

theorem exec_ctParse_of_fits (hflt : s.FLT = 0) (hparse : containerParse s.I = .ok q)
    (hfits : containerFits s.caps q = true) : exec .ctParse s = .next { s with P := some q, S := 0x00 } := by
  rw [exec_ctParse hflt, hparse]
  exact congrArg (settle s) (if_pos hfits)

theorem exec_ctParse_of_overflow (hflt : s.FLT = 0) (hparse : containerParse s.I = .ok q)
    (hfits : ¬ containerFits s.caps q = true) : exec .ctParse s = .next { s with S := 0x82, FLT := 0b100 } := by
  rw [exec_ctParse hflt, hparse]
  exact (congrArg (settle s) (if_neg hfits)).trans (settle_capacity hflt)

theorem failCode_ne_zero (k : FailKind) : failCode k ≠ 0x00 := by cases k <;> decide

/-- R271: `S` is 0 only where `P` was replaced by what `I` parses to. -/
theorem parse_eq_ok_of_exec_ctParse {t : State} (hflt : s.FLT = 0) (hexec : exec .ctParse s = .next t)
    (hS : t.S = 0x00) : ∃ q, containerParse s.I = .ok q ∧ t = { s with P := some q, S := 0x00 } := by
  cases hparse : containerParse s.I with
  | error k =>
    cases (exec_ctParse_of_error hflt hparse).symm.trans hexec
    exact absurd hS (failCode_ne_zero k)
  | ok q =>
    by_cases hfits : containerFits s.caps q = true
    · cases (exec_ctParse_of_fits hflt hparse hfits).symm.trans hexec
      exact ⟨q, rfl, rfl⟩
    · cases (exec_ctParse_of_overflow hflt hparse hfits).symm.trans hexec
      cases hS

/-! ### `CT.SER` (R272) -/

theorem exec_ctSer_of_some {out : List Byte} (hflt : s.FLT = 0) (hP : s.P = some q)
    (hout : containerSerialize q = some out) : exec .ctSer s = settle s (appendO s out) := by
  rw [exec_ctSer hflt, needP_of_some hP, hout]

/-- R261, U1: payloads of at most `LEN_MAX` bytes have records. -/
theorem exists_serializeRecords_of_le_lenMax (h : ∀ c ∈ q, c.data.length ≤ lenMax) :
    ∃ rs : List (List Byte), rs.map some = q.map chunkSerialize ∧ serializeRecords q = some rs.flatten := by
  induction q with
  | nil => exact ⟨[], rfl, rfl⟩
  | cons c q ih =>
    obtain ⟨hc, hq⟩ := List.forall_mem_cons.1 h
    obtain ⟨rs, hmap, hrs⟩ := ih hq
    obtain ⟨len, -, hr⟩ := exists_chunkSerialize_of_le_lenMax hc
    exact ⟨_ :: rs, by rw [List.map_cons, List.map_cons, hmap, hr], serializeRecords_cons hr hrs⟩

/-! ### `CT.APPEND` (R273) -/

theorem exec_ctAppend_of_room {k : Chunk} (hflt : s.FLT = 0) (hP : s.P = some q) (hK : s.K = some k)
    (hroom : s.caps.chunks ≠ some q.length) :
    exec .ctAppend s = .next { s with P := some (q ++ [k]), S := 0x00 } := by
  rw [exec_ctAppend hflt, needP_of_some hP, needK_of_some hK, atCap_eq_false_iff.2 hroom]
  rfl

theorem exec_ctAppend_of_full {k : Chunk} (hflt : s.FLT = 0) (hP : s.P = some q) (hK : s.K = some k)
    (hfull : s.caps.chunks = some q.length) : exec .ctAppend s = .next { s with S := 0x82, FLT := 0b100 } := by
  rw [exec_ctAppend hflt, needP_of_some hP, needK_of_some hK, if_pos (atCap_iff.2 hfull), settle_capacity hflt]

theorem exec_ctAppend_of_none (hflt : s.FLT = 0) (h : s.P = none ∨ s.K = none) :
    exec .ctAppend s = .next { s with S := 0x81, FLT := 0b010 } := by
  obtain hP | ⟨q, hP⟩ := Option.eq_none_or_eq_some s.P
  · exact (exec_ctAppend hflt).trans (settle_needP_of_none hflt hP)
  · rw [exec_ctAppend hflt, needP_of_some hP]
    exact settle_needK_of_none hflt (h.resolve_left fun hnone => nomatch hnone.symm.trans hP)

/-! ### `CT.FIND` and `CT.REMOVE` (R274, R275) -/

theorem exec_ctFind_of_some {c : Chunk} (hflt : s.FLT = 0) (hP : s.P = some q) (hfind : containerFind q s.I = some c) :
    exec .ctFind s = .next { s with K := some c, F := true, S := 0x00 } := by
  rw [exec_ctFind hflt, needP_of_some hP, hfind]
  rfl

theorem exec_ctFind_of_none (hflt : s.FLT = 0) (hP : s.P = some q) (hfind : containerFind q s.I = none) :
    exec .ctFind s = .next { s with F := false, S := 0x00 } := by
  rw [exec_ctFind hflt, needP_of_some hP, hfind]
  rfl

theorem exec_ctRemove_of_some {c : Chunk} {rest : List Chunk} (hflt : s.FLT = 0) (hP : s.P = some q)
    (hremove : containerRemove q s.I = some (c, rest)) :
    exec .ctRemove s = .next { s with K := some c, P := some rest, S := 0x00 } := by
  rw [exec_ctRemove hflt, needP_of_some hP, hremove]
  rfl

theorem exec_ctRemove_of_none (hflt : s.FLT = 0) (hP : s.P = some q) (hremove : containerRemove q s.I = none) :
    exec .ctRemove s = .next { s with S := 0x08 } := by
  rw [exec_ctRemove hflt, needP_of_some hP, hremove]
  rfl

end

/-! ### The obligations about one command -/

/-- Settles O43: the body is one write. -/
theorem ctNewMakesAnEmptyContainer : Obligations.CtNewMakesAnEmptyContainer :=
  ⟨plainEncoding_opcodeOf (i := .ctNew) rfl, fun _ => exec_ctNew⟩

/-- Settles O44: the parse decides, and then the test of the room. -/
theorem ctParseReplacesTheContainer : Obligations.CtParseReplacesTheContainer :=
  ⟨plainEncoding_opcodeOf (i := .ctParse) rfl,
    fun _ hflt hsig => exec_ctParse_of_error hflt (containerParse_of_badSignature hsig),
    fun s _ hflt hparse => ⟨fun hk => containerParse_ne_lengthMismatch s.I (hk ▸ hparse),
      exec_ctParse_of_error hflt hparse⟩,
    fun _ _ hflt hparse hcount hpayloads =>
      exec_ctParse_of_fits hflt hparse (containerFits_iff.2 ⟨hcount, hpayloads⟩),
    fun _ _ hflt hparse hover => exec_ctParse_of_overflow hflt hparse (not_containerFits hover)⟩

/-- Settles O46: the body is one append of the stream. -/
theorem ctSerAppendsTheStream : Obligations.CtSerAppendsTheStream := by
  refine ⟨plainEncoding_opcodeOf (i := .ctSer) rfl, fun q s hflt hP hle => ?_,
    fun s hflt hP => (exec_ctSer hflt).trans (settle_needP_of_none hflt hP)⟩
  obtain ⟨rs, hmap, hrs⟩ := exists_serializeRecords_of_le_lenMax hle
  have hexec := exec_ctSer_of_some hflt hP (containerSerialize_eq_some_iff.2 ⟨_, hrs, rfl⟩)
  exact ⟨rs, hmap, fun hroom => hexec.trans (settle_appendO_of_room hroom),
    fun hfull => hexec.trans (settle_appendO_of_full hflt hfull)⟩

/-- Settles O48: the body reads two registers and tests the room. -/
theorem ctAppendAddsAtTheEnd : Obligations.CtAppendAddsAtTheEnd :=
  ⟨plainEncoding_opcodeOf (i := .ctAppend) rfl, fun _ _ _ => exec_ctAppend_of_room,
    fun _ _ _ => exec_ctAppend_of_full, fun _ => exec_ctAppend_of_none⟩

/-- Settles O49: the search decides, and absence is no failure. -/
theorem ctFindCopiesTheFirstMatch : Obligations.CtFindCopiesTheFirstMatch :=
  ⟨plainEncoding_opcodeOf (i := .ctFind) rfl,
    fun _ _ _ _ hflt hP hc hpre => exec_ctFind_of_some hflt hP (containerFind_of_first hc hpre),
    fun _ _ hflt hP habsent => exec_ctFind_of_none hflt hP (containerFind_of_absent habsent),
    fun _ hflt hP => (exec_ctFind hflt).trans (settle_needP_of_none hflt hP)⟩

/-- Settles O50: the search decides, and absence is `NotFound`. -/
theorem ctRemoveMovesTheFirstMatch : Obligations.CtRemoveMovesTheFirstMatch :=
  ⟨plainEncoding_opcodeOf (i := .ctRemove) rfl,
    fun _ _ _ _ hflt hP hc hpre => exec_ctRemove_of_some hflt hP (containerRemove_of_first hc hpre),
    fun _ _ hflt hP habsent => exec_ctRemove_of_none hflt hP (containerRemove_of_absent habsent),
    fun _ hflt hP => (exec_ctRemove hflt).trans (settle_needP_of_none hflt hP)⟩

/-! ### The obligations about sequences of commands -/

/-- Settles O55: `CT.PARSE` leaves in `P` the container whose stream is `I`, and `OUT.CLR` makes the room. -/
theorem roundTripOfAParsedStream : Obligations.RoundTripOfAParsedStream := by
  refine ⟨fun _ _ => containerSerialize_of_parse_eq_ok, fun b s t hflt hI hexec hS hroom => ?_⟩
  obtain ⟨q, hparse, rfl⟩ := parse_eq_ok_of_exec_ctParse hflt hexec hS
  have hclr : exec .outClr { s with P := some q, S := 0x00 } = .next { s with P := some q, O := [], S := 0x00 } :=
    exec_outClr hflt
  have hser : exec .ctSer { s with P := some q, O := [], S := 0x00 } =
      settle { s with P := some q, O := [], S := 0x00 } (appendO { s with P := some q, O := [], S := 0x00 } b) :=
    exec_ctSer_of_some hflt rfl (containerSerialize_of_parse_eq_ok (hI ▸ hparse))
  rw [settle_appendO_of_room (by simpa using hroom)] at hser
  exact (runInstrs_cons_of_next hclr).trans (runInstrs_cons_of_next hser)

/-- Settles O52: the appended chunk is the one of least index, and the container is as before once it is removed. -/
theorem appendFindRemoveFind : Obligations.AppendFindRemoveFind := by
  refine ⟨fun q k s hflt hP hK hI habsent hroom => ?_, fun _ _ _ _ => containerFind_append_of_some⟩
  rw [← hI] at habsent
  have happend : exec .ctAppend s = .next { s with P := some (q ++ [k]), S := 0x00 } :=
    exec_ctAppend_of_room hflt hP hK hroom
  have hfind : exec .ctFind { s with P := some (q ++ [k]), S := 0x00 } =
      .next { s with K := some k, P := some (q ++ [k]), F := true, S := 0x00 } :=
    exec_ctFind_of_some hflt rfl (containerFind_of_first hI.symm habsent)
  have hremove : exec .ctRemove { s with P := some (q ++ [k]), S := 0x00 } =
      .next { s with K := some k, P := some (q ++ []), S := 0x00 } :=
    exec_ctRemove_of_some hflt rfl (containerRemove_of_first hI.symm habsent)
  have hgone : exec .ctFind { s with K := some k, P := some q, S := 0x00 } =
      .next { s with K := some k, P := some q, F := false, S := 0x00 } :=
    exec_ctFind_of_none hflt rfl (containerFind_of_absent habsent)
  rw [hK] at hfind
  rw [List.append_nil] at hremove
  rw [runInstrs_cons_of_next happend, runInstrs_cons_of_next happend, runInstrs_cons_of_next hremove, hP, hK]
  exact ⟨runInstrs_cons_of_next hfind, runInstrs_cons_of_next hgone⟩

/-- Settles O53: no chunk before the first of the two matches, and none before the second once the first is removed. -/
theorem duplicateTypesAreTakenInOrder : Obligations.DuplicateTypesAreTakenInOrder := by
  intro q c1 c2 s hflt hP h1 h2 habsent
  have htwo : containerAppend (containerAppend q c1) c2 = q ++ c1 :: [c2] := by simp [containerAppend]
  rw [htwo] at hP
  have hremove : exec .ctRemove s = .next { s with K := some c1, P := some (containerAppend q c2), S := 0x00 } :=
    exec_ctRemove_of_some hflt hP (containerRemove_of_first h1 habsent)
  have hsecond : exec .ctFind { s with K := some c1, P := some (containerAppend q c2), S := 0x00 } =
      .next { s with K := some c2, P := some (containerAppend q c2), F := true, S := 0x00 } :=
    exec_ctFind_of_some hflt rfl (containerFind_of_first h2 habsent)
  exact ⟨runInstrs_cons_of_next (exec_ctFind_of_some hflt hP (containerFind_of_first h1 habsent)),
    runInstrs_cons_of_next hremove, (runInstrs_cons_of_next hremove).trans (runInstrs_cons_of_next hsecond)⟩

end Sys2Proof.Machine

/-! SUPPORT and PROOFS. The operand matrix (49_command_set_laws.md section 1, R290, R291). The body of a command ends in
a list of assignments, a failure kind, a fault or a refusal. Run at two states that agree on its "reads" column it ends
in the same one of them at both, and that one stands in the matrix. Both laws of the command set follow: R291 (a) to (c)
where the two states are one, R291 (e) where they are two. -/

namespace Sys2Proof.Machine

/-! ### Elements -/

theorem sameElem_refl (s : State) (e : Elem) : sameElem s s e := by cases e <;> rfl

theorem sameElem_symm {s t : State} {e : Elem} (h : sameElem s t e) : sameElem t s e := by
  cases e <;> exact Eq.symm h

theorem sameElem_trans {s t u : State} {e : Elem} (h : sameElem s t e) (h' : sameElem t u e) : sameElem s u e := by
  cases e <;> exact Eq.trans h h'

/-! ### Assignments (R300) -/

/-- A value for one element of R20. -/
inductive Assignment where
  | R (v : U32)
  | C (v : U32)
  | T (v : Option TypeCode)
  | K (v : Option Chunk)
  | P (v : Option (List Chunk))
  | I (v : List Byte)
  | O (v : List Byte)
  | S (v : BitVec 8)
  | F (v : Bool)
  | FLT (v : BitVec 3)

/-- The element assigned. -/
def Assignment.elem : Assignment → Elem
  | .R _ => .R
  | .C _ => .C
  | .T _ => .T
  | .K _ => .K
  | .P _ => .P
  | .I _ => .I
  | .O _ => .O
  | .S _ => .S
  | .F _ => .F
  | .FLT _ => .FLT

/-- The state after the assignment. -/
def Assignment.apply (s : State) : Assignment → State
  | .R v => { s with R := v }
  | .C v => { s with C := v }
  | .T v => { s with T := v }
  | .K v => { s with K := v }
  | .P v => { s with P := v }
  | .I v => { s with I := v }
  | .O v => { s with O := v }
  | .S v => { s with S := v }
  | .F v => { s with F := v }
  | .FLT v => { s with FLT := v }

@[simp] theorem Assignment.apply_caps (a : Assignment) (s : State) : (a.apply s).caps = s.caps := by cases a <;> rfl

@[simp] theorem Assignment.apply_pending (a : Assignment) (s : State) : (a.apply s).pending = s.pending := by
  cases a <;> rfl

theorem Assignment.sameElem_apply_elem (a : Assignment) (s s' : State) : sameElem (a.apply s) (a.apply s') a.elem := by
  cases a <;> rfl

theorem Assignment.sameElem_apply_of_ne {a : Assignment} {e : Elem} (h : e ≠ a.elem) (s : State) :
    sameElem s (a.apply s) e := by
  cases a <;> cases e <;> trivial

/-- The state after the assignments; the head of the list is the last of them. -/
def applyAll (s : State) (as : List Assignment) : State := as.foldr (fun a t => a.apply t) s

@[simp] theorem applyAll_cons (s : State) (a : Assignment) (as : List Assignment) :
    applyAll s (a :: as) = a.apply (applyAll s as) := rfl

@[simp] theorem applyAll_caps (s : State) (as : List Assignment) : (applyAll s as).caps = s.caps := by
  induction as with
  | nil => rfl
  | cons a as ih => simpa using ih

@[simp] theorem applyAll_pending (s : State) (as : List Assignment) : (applyAll s as).pending = s.pending := by
  induction as with
  | nil => rfl
  | cons a as ih => simpa using ih

/-- The frame of a list of assignments. -/
theorem sameElem_applyAll_of_notMem {as : List Assignment} {e : Elem} (h : e ∉ as.map Assignment.elem) (s : State) :
    sameElem s (applyAll s as) e := by
  induction as with
  | nil => exact sameElem_refl s e
  | cons a as ih =>
    exact sameElem_trans (ih (List.not_mem_of_not_mem_cons h))
      (Assignment.sameElem_apply_of_ne (List.ne_of_not_mem_cons h) _)

/-- An element that is assigned no longer depends on what it was. -/
theorem sameElem_applyAll_of_mem {as : List Assignment} {e : Elem} (h : e ∈ as.map Assignment.elem) (s s' : State) :
    sameElem (applyAll s as) (applyAll s' as) e := by
  induction as with
  | nil => cases h
  | cons a as ih =>
    by_cases he : e = a.elem
    · exact he ▸ a.sameElem_apply_elem _ _
    · have hmem : e ∈ as.map Assignment.elem := List.mem_of_ne_of_mem he h
      exact sameElem_trans (sameElem_symm (Assignment.sameElem_apply_of_ne he _))
        (sameElem_trans (ih hmem) (Assignment.sameElem_apply_of_ne he _))

/-! ### Ends that are alike -/

/-- Two states at which the command has to end alike (R291 (e)). -/
structure AgreeOnReads (i : Instr) (s s' : State) : Prop where
  running : s.FLT = 0
  running' : s'.FLT = 0
  caps : s.caps = s'.caps
  reads : ∀ e ∈ readsOf i, sameElem s s' e

/-- The ends of a command's body at `s` and at `s'` are one and the same, and the operand matrix lists it (R290). -/
inductive EndsAlike (i : Instr) (s s' : State) : Ending → Ending → Prop
  | done (as : List Assignment) (h : as.map Assignment.elem ⊆ writesOf i) :
      EndsAlike i s s' (.done (applyAll s as)) (.done (applyAll s' as))
  | raise (k : FailKind) (h : k ∈ kindsOf i) : EndsAlike i s s' (.raise k) (.raise k)
  | fault (k : HwFault) (h : k ∈ faultsOf i) : EndsAlike i s s' (.fault k) (.fault k)
  | refuse (r : Refusal) : EndsAlike i s s' (.refuse r) (.refuse r)

section
variable {i : Instr} {s s' : State}

/-- What ends alike is settled by the same assignments, of which `S` is one, or by the same refusal (R300). -/
theorem EndsAlike.settle {e e' : Ending} (h : EndsAlike i s s' e e') (hflt : s.FLT = 0) (hflt' : s'.FLT = 0) :
    (∃ as : List Assignment, .S ∈ as.map Assignment.elem ∧ settle s e = .next (applyAll s as) ∧
      settle s' e' = .next (applyAll s' as)) ∨
    ∃ r, settle s e = .refused r ∧ settle s' e' = .refused r := by
  cases h with
  | done as _ => exact .inl ⟨.S okCode :: as, .head _, rfl, rfl⟩
  | raise k _ => exact .inl ⟨[.S (failCode k)], .head _, rfl, rfl⟩
  | fault k _ =>
    refine .inl ⟨[.S (faultCode k), .FLT (faultBit k)], .head _, ?_, ?_⟩
    · rw [settle_fault, State.takeFault_of_running k hflt]
      rfl
    · rw [settle_fault, State.takeFault_of_running k hflt']
      rfl
  | refuse r => exact .inr ⟨r, rfl, rfl⟩

/-! ### The shared operations end alike -/

theorem assign_endsAlike {a a' : Assignment} (ha : a = a')
    (hw : a.elem ∈ writesOf i := by simp [writesOf, Assignment.elem]) :
    EndsAlike i s s' (.done (a.apply s)) (.done (a'.apply s')) := by
  subst ha
  exact .done [a] (List.cons_subset.2 ⟨hw, List.nil_subset _⟩)

theorem ite_endsAlike {b b' : Bool} {x x' y y' : Ending} (hb : b = b') (hx : EndsAlike i s s' x x')
    (hy : EndsAlike i s s' y y') : EndsAlike i s s' (if b then x else y) (if b' then x' else y') := by
  subst hb
  split
  · exact hx
  · exact hy

theorem putR_endsAlike {v v' : U32} (hv : v = v') (hw : .R ∈ writesOf i := by simp [writesOf]) :
    EndsAlike i s s' (putR s v) (putR s' v') :=
  assign_endsAlike (congrArg Assignment.R hv) hw

theorem putT_endsAlike {r r' : Except FailKind TypeCode} (hr : r = r')
    (hk : ∀ k, r = .error k → k ∈ kindsOf i) (hw : .T ∈ writesOf i := by simp [writesOf]) :
    EndsAlike i s s' (putT s r) (putT s' r') := by
  subst hr
  cases r with
  | ok t => exact assign_endsAlike (a := .T (some t)) rfl hw
  | error k => exact .raise k (hk k rfl)

theorem putK_endsAlike {c c' : Chunk} (h : AgreeOnReads i s s') (hc : c = c')
    (hw : .K ∈ writesOf i := by simp [writesOf]) (hcap : .capacity ∈ faultsOf i := by simp [faultsOf]) :
    EndsAlike i s s' (putK s c) (putK s' c') := by
  subst hc
  exact ite_endsAlike (by rw [h.caps]) (assign_endsAlike (a := .K (some c)) rfl hw) (.fault _ hcap)

theorem appendO_endsAlike {v v' : List Byte} (h : AgreeOnReads i s s') (hv : v = v')
    (hO : .O ∈ readsOf i := by simp [readsOf]) (hw : .O ∈ writesOf i := by simp [writesOf])
    (hcap : .capacity ∈ faultsOf i := by simp [faultsOf]) : EndsAlike i s s' (appendO s v) (appendO s' v') := by
  subst hv
  have hO : s.O = s'.O := h.reads .O hO
  have hnew : EndsAlike i s s' (.done { s with O := s.O ++ v }) (.done { s' with O := s'.O ++ v }) :=
    assign_endsAlike (congrArg (fun o => Assignment.O (o ++ v)) hO) hw
  exact ite_endsAlike (by rw [h.caps, hO]) hnew (.fault _ hcap)

theorem needT_endsAlike {f f' : TypeCode → Ending} (h : AgreeOnReads i s s')
    (hf : ∀ t, EndsAlike i s s' (f t) (f' t)) (hT : .T ∈ readsOf i := by simp [readsOf])
    (hempty : .emptyOperand ∈ faultsOf i := by simp [faultsOf]) :
    EndsAlike i s s' (needT s f) (needT s' f') := by
  have hT : s.T = s'.T := h.reads .T hT
  cases hs : s'.T with
  | none => rw [needT_of_none hs, needT_of_none (hT.trans hs)]; exact .fault _ hempty
  | some t => rw [needT_of_some hs, needT_of_some (hT.trans hs)]; exact hf t

theorem needK_endsAlike {f f' : Chunk → Ending} (h : AgreeOnReads i s s')
    (hf : ∀ k, EndsAlike i s s' (f k) (f' k)) (hK : .K ∈ readsOf i := by simp [readsOf])
    (hempty : .emptyOperand ∈ faultsOf i := by simp [faultsOf]) :
    EndsAlike i s s' (needK s f) (needK s' f') := by
  have hK : s.K = s'.K := h.reads .K hK
  cases hs : s'.K with
  | none => rw [needK_of_none hs, needK_of_none (hK.trans hs)]; exact .fault _ hempty
  | some k => rw [needK_of_some hs, needK_of_some (hK.trans hs)]; exact hf k

theorem needP_endsAlike {f f' : List Chunk → Ending} (h : AgreeOnReads i s s')
    (hf : ∀ q, EndsAlike i s s' (f q) (f' q)) (hP : .P ∈ readsOf i := by simp [readsOf])
    (hempty : .emptyOperand ∈ faultsOf i := by simp [faultsOf]) :
    EndsAlike i s s' (needP s f) (needP s' f') := by
  have hP : s.P = s'.P := h.reads .P hP
  cases hs : s'.P with
  | none => rw [needP_of_none hs, needP_of_none (hP.trans hs)]; exact .fault _ hempty
  | some q => rw [needP_of_some hs, needP_of_some (hP.trans hs)]; exact hf q

theorem predicateOfT_endsAlike (p : TypeCode → Bool) (h : AgreeOnReads i s s')
    (hT : .T ∈ readsOf i := by simp [readsOf]) (hempty : .emptyOperand ∈ faultsOf i := by simp [faultsOf])
    (hw : .R ∈ writesOf i := by simp [writesOf]) :
    EndsAlike i s s' (predicateOfT p s) (predicateOfT p s') :=
  needT_endsAlike h (fun _ => putR_endsAlike rfl hw) hT hempty

end

/-! ### The kinds the functions answer (R290, column "kinds") -/

theorem tcConstruct_error {t : TypeCode} {k : FailKind} (h : tcConstruct t = .error k) : k = .nonAlphabeticByte := by
  unfold tcConstruct at h
  split at h
  next => cases h
  next => cases h; rfl

theorem tcConstructFromText_error_mem {text : List Byte} {k : FailKind} (h : tcConstructFromText text = .error k) :
    k ∈ kindsOf .tcNewt := by
  unfold tcConstructFromText at h
  split at h
  next => cases h; decide
  next => cases tcConstruct_error h; decide

theorem chunkPayloadAsText_error {c : Chunk} {k : FailKind} (h : chunkPayloadAsText c = .error k) :
    k = .notUtf8Text := by
  unfold chunkPayloadAsText at h
  split at h
  next => cases h
  next => cases h; rfl

theorem chunkParse_error_mem {s : List Byte} {k : FailKind} (h : chunkParse s = .error k) : k ∈ kindsOf .chParse := by
  obtain hshort | hlong := lt_or_ge s.length 12
  · cases (chunkParse_of_short hshort).symm.trans h
    decide
  · obtain ⟨len, t, d, sum, rfl⟩ := exists_recordOf_of_length hlong
    rw [chunkParse_recordOf] at h
    split_ifs at h <;> cases h <;> decide

/-- The records of a stream raise `Truncated` or what `chunkParse` raises (R262). -/
theorem containerParse_sig_append_error_mem {s : List Byte} {k : FailKind} (h : containerParse (sig ++ s) = .error k) :
    k ∈ kindsOf .chParse := by
  induction s using records_induction with
  | nil => cases h
  | noLength s hpos hlt => cases (containerParse_of_noLength hpos hlt).symm.trans h; decide
  | cutShort len r hlt => cases (containerParse_of_cutShort hlt).symm.trans h; decide
  | record len r rest hlen ih =>
    cases hparse : chunkParse (be32enc len ++ r) with
    | error k' =>
      cases (containerParse_of_badRecord hlen hparse).symm.trans h
      exact chunkParse_error_mem hparse
    | ok c =>
      rw [containerParse_of_goodRecord hlen hparse] at h
      cases hrest : containerParse (sig ++ rest) with
      | error k' => rw [hrest] at h; cases h; exact ih hrest
      | ok q => rw [hrest] at h; cases h

theorem containerParse_error_mem {s : List Byte} {k : FailKind} (h : containerParse s = .error k) :
    k ∈ kindsOf .ctParse := by
  obtain hbad | ⟨rs, rfl⟩ := badSignature_or_exists_sig_append s
  · cases (containerParse_of_badSignature hbad).symm.trans h
    decide
  · have hmem := containerParse_sig_append_error_mem h
    have hne : k ≠ .lengthMismatch := fun hk => containerParse_ne_lengthMismatch _ (hk ▸ h)
    have hrows : ∀ k ∈ kindsOf .chParse, k ≠ .lengthMismatch → k ∈ kindsOf .ctParse := by decide
    exact hrows k hmem hne

/-! ### Every command ends alike -/

/-- R290, R291: one row of the matrix at a time; `body` is the command's body, by the laws of Laws/Meanings.lean. -/
theorem exec_endsAlike {i : Instr} {s s' : State} (h : AgreeOnReads i s s') :
    ∃ body : State → Ending, (∀ t : State, t.FLT = 0 → exec i t = settle t (body t)) ∧
      EndsAlike i s s' (body s) (body s') := by
  cases i with
  | nop => exact ⟨_, fun _ => exec_nop, .done [] (List.nil_subset _)⟩
  | inClr => exact ⟨_, fun _ => exec_inClr, assign_endsAlike (a := .I []) rfl⟩
  | inPush imm8 =>
    have hI : s.I = s'.I := h.reads .I (.head _)
    have hnew : EndsAlike (.inPush imm8) s s' (.done { s with I := s.I ++ [imm8] })
        (.done { s' with I := s'.I ++ [imm8] }) :=
      assign_endsAlike (congrArg (fun d => Assignment.I (d ++ [imm8])) hI)
    exact ⟨_, fun _ => exec_inPush imm8, ite_endsAlike (by rw [h.caps, hI]) (.fault _ (.head _)) hnew⟩
  | outClr => exact ⟨_, fun _ => exec_outClr, assign_endsAlike (a := .O []) rfl⟩
  | movIo => exact ⟨_, fun _ => exec_movIo, assign_endsAlike (congrArg Assignment.I (h.reads .O (by decide)))⟩
  | beEnc =>
    have hR : s.R = s'.R := h.reads .R (by decide)
    exact ⟨_, fun _ => exec_beEnc, appendO_endsAlike h (by rw [hR])⟩
  | beDec imm8 =>
    have hI : s.I = s'.I := h.reads .I (.head _)
    refine ⟨_, fun _ => exec_beDec imm8, ?_⟩
    rw [hI]
    cases fieldAt s'.I (immOffset imm8) with
    | none => exact .raise _ (.head _)
    | some v => exact putR_endsAlike rfl
  | crcInit => exact ⟨_, fun _ => exec_crcInit, assign_endsAlike (a := .C crcInitValue) rfl⟩
  | crcUpd imm8 =>
    have hC : s.C = s'.C := h.reads .C (.head _)
    exact ⟨_, fun _ => exec_crcUpd imm8, assign_endsAlike (congrArg (fun c => Assignment.C (crcStep c imm8)) hC)⟩
  | crcUpdi =>
    have hC : s.C = s'.C := h.reads .C (by decide)
    have hI : s.I = s'.I := h.reads .I (by decide)
    exact ⟨_, fun _ => exec_crcUpdi, assign_endsAlike (congrArg₂ (fun c d => Assignment.C (crcUpdate c d)) hC hI)⟩
  | crcFin =>
    have hC : s.C = s'.C := h.reads .C (by decide)
    exact ⟨_, fun _ => exec_crcFin, putR_endsAlike (by rw [hC])⟩
  | tcNew =>
    have hR : s.R = s'.R := h.reads .R (by decide)
    refine ⟨_, fun _ => exec_tcNew, putT_endsAlike (by rw [hR]) fun k hk => ?_⟩
    cases tcConstruct_error hk
    decide
  | tcNewt =>
    have hI : s.I = s'.I := h.reads .I (by decide)
    exact ⟨_, fun _ => exec_tcNewt, putT_endsAlike (by rw [hI]) fun _ => tcConstructFromText_error_mem⟩
  | tcValid => exact ⟨_, fun _ => exec_tcValid, predicateOfT_endsAlike _ h⟩
  | tcCrit => exact ⟨_, fun _ => exec_tcCrit, predicateOfT_endsAlike _ h⟩
  | tcPub => exact ⟨_, fun _ => exec_tcPub, predicateOfT_endsAlike _ h⟩
  | tcRsv => exact ⟨_, fun _ => exec_tcRsv, predicateOfT_endsAlike _ h⟩
  | tcSafe => exact ⟨_, fun _ => exec_tcSafe, predicateOfT_endsAlike _ h⟩
  | tcBytes => exact ⟨_, fun _ => exec_tcBytes, needT_endsAlike h fun _ => putR_endsAlike rfl⟩
  | tcText => exact ⟨_, fun _ => exec_tcText, needT_endsAlike h fun _ => appendO_endsAlike h rfl⟩
  | tcEq => exact ⟨_, fun _ => exec_tcEq, needT_endsAlike h fun _ => needK_endsAlike h fun _ => putR_endsAlike rfl⟩
  | chNew =>
    have hI : s.I = s'.I := h.reads .I (by decide)
    exact ⟨_, fun _ => exec_chNew, needT_endsAlike h fun _ => putK_endsAlike h (by rw [hI])⟩
  | chLen =>
    refine ⟨_, fun _ => exec_chLen, needK_endsAlike h fun k => ?_⟩
    cases chunkLength k with
    | none => exact .refuse _
    | some len => exact putR_endsAlike rfl
  | chCrc => exact ⟨_, fun _ => exec_chCrc, needK_endsAlike h fun _ => putR_endsAlike rfl⟩
  | chType =>
    exact ⟨_, fun _ => exec_chType, needK_endsAlike h fun k => assign_endsAlike (a := .T (some k.type)) rfl⟩
  | chData => exact ⟨_, fun _ => exec_chData, needK_endsAlike h fun _ => appendO_endsAlike h rfl⟩
  | chText =>
    refine ⟨_, fun _ => exec_chText, needK_endsAlike h fun k => ?_⟩
    cases htext : chunkPayloadAsText k with
    | error e => cases chunkPayloadAsText_error htext; exact .raise _ (by decide)
    | ok text => exact appendO_endsAlike h rfl
  | chSer =>
    refine ⟨_, fun _ => exec_chSer, needK_endsAlike h fun k => ?_⟩
    cases chunkSerialize k with
    | none => exact .refuse _
    | some out => exact appendO_endsAlike h rfl
  | chParse =>
    have hI : s.I = s'.I := h.reads .I (by decide)
    refine ⟨_, fun _ => exec_chParse, ?_⟩
    rw [hI]
    cases hparse : chunkParse s'.I with
    | error k => exact .raise _ (chunkParse_error_mem hparse)
    | ok c => exact putK_endsAlike h rfl
  | ctNew => exact ⟨_, fun _ => exec_ctNew, assign_endsAlike (a := .P (some containerNew)) rfl⟩
  | ctParse =>
    have hI : s.I = s'.I := h.reads .I (by decide)
    have hparse : containerParse s.I = containerParse s'.I := by rw [hI]
    refine ⟨_, fun _ => exec_ctParse, ?_⟩
    rw [hparse]
    cases hparse' : containerParse s'.I with
    | error k => exact .raise _ (containerParse_error_mem hparse')
    | ok q =>
      exact ite_endsAlike (by rw [h.caps]) (assign_endsAlike (a := .P (some q)) rfl) (.fault _ (by decide))
  | ctSer =>
    refine ⟨_, fun _ => exec_ctSer, needP_endsAlike h fun q => ?_⟩
    cases containerSerialize q with
    | none => exact .refuse _
    | some out => exact appendO_endsAlike h rfl
  | ctAppend =>
    refine ⟨_, fun _ => exec_ctAppend, needP_endsAlike h fun q => needK_endsAlike h fun k => ?_⟩
    exact ite_endsAlike (by rw [h.caps]) (.fault _ (by decide))
      (assign_endsAlike (a := .P (some (containerAppend q k))) rfl)
  | ctFind =>
    have hI : s.I = s'.I := h.reads .I (by decide)
    refine ⟨_, fun _ => exec_ctFind, needP_endsAlike h fun q => ?_⟩
    have hfind : containerFind q s.I = containerFind q s'.I := by rw [hI]
    rw [hfind]
    cases containerFind q s'.I with
    | none => exact assign_endsAlike (a := .F false) rfl
    | some c => exact .done [.F true, .K (some c)] (List.Subset.refl _)
  | ctRemove =>
    have hI : s.I = s'.I := h.reads .I (by decide)
    refine ⟨_, fun _ => exec_ctRemove, needP_endsAlike h fun q => ?_⟩
    have hremove : containerRemove q s.I = containerRemove q s'.I := by rw [hI]
    rw [hremove]
    cases containerRemove q s'.I with
    | none => exact .raise _ (by decide)
    | some r => exact .done [.P (some r.2), .K (some r.1)] (List.Subset.refl _)

/-! ### The obligations -/

theorem FLT_notMem_writesOf (i : Instr) : Elem.FLT ∉ writesOf i := by
  cases i <;> simp [writesOf]

/-- Settles O56: a state agrees with itself on what a command reads, so the body's end is one the matrix lists. -/
theorem everyCommandEndsInOneOfThreeWays : Obligations.EveryCommandEndsInOneOfThreeWays := by
  intro i s t hflt hexec
  have hagree : AgreeOnReads i s s := ⟨hflt, hflt, rfl, fun e _ => sameElem_refl s e⟩
  obtain ⟨body, hend, halike⟩ := exec_endsAlike hagree
  rw [hend s hflt] at hexec
  generalize body s = e at hexec halike
  cases halike with
  | done as hwrites =>
    obtain rfl : applyAll s (.S okCode :: as) = t := Host.Outcome.next.inj hexec
    have hframe : ∀ e : Elem, e ≠ .S → e ∉ writesOf i → sameElem s (applyAll s (.S okCode :: as)) e :=
      fun e hS he =>
        sameElem_applyAll_of_notMem (List.not_mem_cons_of_ne_of_not_mem hS fun hmem => he (hwrites hmem)) s
    have hFLT : s.FLT = (applyAll s (.S okCode :: as)).FLT := hframe .FLT (by decide) (FLT_notMem_writesOf i)
    exact .inl ⟨rfl, hFLT.symm.trans hflt, applyAll_caps .., applyAll_pending .., hframe⟩
  | raise k hk => exact .inr (.inl ⟨k, hk, (Host.Outcome.next.inj hexec).symm⟩)
  | fault k hk =>
    rw [settle_fault, State.takeFault_of_running k hflt] at hexec
    exact .inr (.inr ⟨k, hk, (Host.Outcome.next.inj hexec).symm⟩)
  | refuse r => cases hexec

/-- Settles O57: at both states the command ends in the same assignments or in the same refusal. -/
theorem commandsDependOnWhatTheyReadOnly : Obligations.CommandsDependOnWhatTheyReadOnly := by
  intro i s s' hflt hflt' hcaps hreads
  obtain ⟨body, hend, halike⟩ := exec_endsAlike ⟨hflt, hflt', hcaps, hreads⟩
  rw [hend s hflt, hend s' hflt']
  obtain ⟨as, hS, hnext, hnext'⟩ | ⟨r, hrefused, hrefused'⟩ := halike.settle hflt hflt'
  · rw [hnext, hnext']
    refine ⟨fun t ht => ?_, nofun⟩
    obtain rfl : applyAll s as = t := Host.Outcome.next.inj ht
    have hsame : ∀ e : Elem, sameElem (applyAll s as) (applyAll s' as) e ∨
        (sameElem s (applyAll s as) e ∧ sameElem s' (applyAll s' as) e) := fun e =>
      (em (e ∈ as.map Assignment.elem)).imp (sameElem_applyAll_of_mem · s s')
        fun he => ⟨sameElem_applyAll_of_notMem he s, sameElem_applyAll_of_notMem he s'⟩
    have hFLT : (applyAll s as).FLT = (applyAll s' as).FLT := by
      obtain h | ⟨h, h'⟩ := hsame .FLT
      · exact h
      · exact h.symm.trans ((hflt.trans hflt'.symm).trans h')
    exact ⟨applyAll s' as, rfl, sameElem_applyAll_of_mem hS s s', hFLT, hsame⟩
  · rw [hrefused, hrefused']
    exact ⟨nofun, fun _ h => h⟩

end Sys2Proof.Machine

/-! SUPPORT and PROOFS. The words that are no command (60_exceptions.md R311). Both kinds of reserved word fail the test
of well-formed words, and every word that fails it is the `IllegalCommand` fault. -/

namespace Sys2Proof.Machine

/-- R94: a reserved opcode, whatever the immediate. -/
theorem not_wellFormed_of_reservedOpcode {w : CommandWord} (hres : opReserved (wordOp w) = true) :
    ¬ wordWellFormed w = true := by
  rw [wordWellFormed_iff]
  rintro ⟨hassigned, -⟩
  exact Bool.false_ne_true (hassigned.symm.trans hres)

/-- Settles O5: a reserved opcode fails the first part of the test (R94), and a nonzero immediate, in a word put
together from its two bytes again, the second (R95). -/
theorem reservedWordIsIllegalCommand : Obligations.ReservedWordIsIllegalCommand := by
  constructor
  · exact fun w hres => wordIsIllegal_of_not_wellFormed (not_wellFormed_of_reservedOpcode hres)
  · intro w htakes himm
    have hbytes : ¬ wordWellFormed (wordOp w ++ wordImm w) = true := not_wellFormed_of_reservedImmediate htakes himm
    rw [wordOp_append_wordImm] at hbytes
    exact wordIsIllegal_of_not_wellFormed hbytes

end Sys2Proof.Machine

/-! SUPPORT and PROOFS. How a step ends (60_exceptions.md R300; 70_reset_and_hazards.md R341, R349). The end of a
command's body keeps the valid bits where it commits, and is a refusal only where the state holds a payload above
`LEN_MAX` (U1): one walk through the commands finds both. -/

namespace Sys2Proof.Machine

/-! ### Where the length of a payload is no u32 (R221, R226, R261, U1) -/

theorem chunkLength_eq_none_iff {c : Chunk} : chunkLength c = none ↔ lenMax < c.data.length := by
  unfold chunkLength
  split
  next hle => exact iff_of_false nofun (not_lt.2 hle)
  next hgt => exact iff_of_true rfl (not_le.1 hgt)

theorem chunkSerialize_eq_none_iff {c : Chunk} : chunkSerialize c = none ↔ lenMax < c.data.length := by
  rw [← chunkLength_eq_none_iff, chunkSerialize]
  cases chunkLength c <;> simp

theorem serializeRecords_eq_none_iff {q : List Chunk} :
    serializeRecords q = none ↔ ∃ c ∈ q, lenMax < c.data.length := by
  induction q with
  | nil => simp [serializeRecords]
  | cons c q ih =>
    have hcons : serializeRecords (c :: q) = none ↔ chunkSerialize c = none ∨ serializeRecords q = none := by
      rw [serializeRecords]
      cases chunkSerialize c <;> cases serializeRecords q <;> simp
    rw [hcons, chunkSerialize_eq_none_iff, ih, List.exists_mem_cons_iff]

theorem containerSerialize_eq_none_iff {q : List Chunk} :
    containerSerialize q = none ↔ ∃ c ∈ q, lenMax < c.data.length := by
  rw [← serializeRecords_eq_none_iff, containerSerialize]
  cases serializeRecords q <;> simp

/-- What U1 speaks of: a payload above `LEN_MAX`, in `K` or in the container store. -/
def State.HoldsOverlong (s : State) : Prop :=
  (∃ k, s.K = some k ∧ lenMax < k.data.length) ∨ ∃ q, s.P = some q ∧ ∃ c ∈ q, lenMax < c.data.length

/-- R8, R27: `CAP_PAYLOAD` is at most `LEN_MAX`. -/
theorem le_lenMax_of_payloadFits {caps : Capacities} {d : List Byte} (h : payloadFits caps d = true) :
    d.length ≤ lenMax :=
  (payloadFits_iff.1 h).trans (Nat.le_of_lt_succ caps.payload.isLt)

theorem State.not_holdsOverlong_of_wf {s : State} (hs : s.wf = true) : ¬ s.HoldsOverlong := by
  obtain ⟨hstores, -⟩ := State.wf_iff.1 hs
  obtain ⟨-, -, hK, hP⟩ := memory_wf_iff.1 hstores.memory
  rintro (⟨k, hk, hlong⟩ | ⟨q, hq, c, hc, hlong⟩)
  · exact absurd (le_lenMax_of_payloadFits (hK k hk)) (not_le.2 hlong)
  · exact absurd (le_lenMax_of_payloadFits ((hP q hq).2 c hc)) (not_le.2 hlong)

/-! ### What a command never takes away -/

/-- From `s` to `t` no register loses its value (R26, R28, R30), and the capacities stay (R21). -/
structure State.Keeps (s t : State) : Prop where
  caps : t.caps = s.caps
  validT : s.T.isSome → t.T.isSome
  validK : s.K.isSome → t.K.isSome
  validP : s.P.isSome → t.P.isSome

/-- How the body of a command may end at `s`: what it commits keeps the valid bits, and U1 is its one refusal. -/
inductive SafeEnding (s : State) : Ending → Prop
  | done {t : State} (h : s.Keeps t) : SafeEnding s (.done t)
  | raise (k : FailKind) : SafeEnding s (.raise k)
  | fault (k : HwFault) : SafeEnding s (.fault k)
  | refuse (r : Refusal) (h : s.HoldsOverlong) : SafeEnding s (.refuse r)

section
variable {s : State}

/-- The three ends of R300 write `S` and `FLT` beside what the body commits. -/
theorem SafeEnding.keeps {t : State} {e : Ending} (he : SafeEnding s e) (h : settle s e = .next t) : s.Keeps t := by
  cases he with
  | done hkeeps =>
    cases h
    obtain ⟨hcaps, hT, hK, hP⟩ := hkeeps
    exact ⟨hcaps, hT, hK, hP⟩
  | raise k => cases h; exact ⟨rfl, id, id, id⟩
  | fault k => cases h; exact ⟨rfl, id, id, id⟩
  | refuse r _ => cases h

theorem SafeEnding.answers {e : Ending} (he : SafeEnding s e) (hs : ¬ s.HoldsOverlong) :
    ∃ t, settle s e = .next t := by
  cases he with
  | done _ => exact ⟨_, settle_done ..⟩
  | raise k => exact ⟨_, settle_raise ..⟩
  | fault k => exact ⟨_, settle_fault ..⟩
  | refuse r hlong => exact absurd hlong hs

/-! ### The operations end safely -/

/-- A write to none of `T`, `K` and `P`. -/
theorem writeOthers_safeEnding {r c : U32} {i o : List Byte} {f : Bool} :
    SafeEnding s (.done { s with R := r, C := c, I := i, O := o, F := f }) :=
  .done ⟨rfl, id, id, id⟩

theorem writeT_safeEnding (t : TypeCode) : SafeEnding s (.done { s with T := some t }) :=
  .done ⟨rfl, fun _ => rfl, id, id⟩

theorem writeP_safeEnding (q : List Chunk) : SafeEnding s (.done { s with P := some q }) :=
  .done ⟨rfl, id, id, fun _ => rfl⟩

theorem putR_safeEnding (v : U32) : SafeEnding s (putR s v) := writeOthers_safeEnding

theorem putT_safeEnding (r : Except FailKind TypeCode) : SafeEnding s (putT s r) := by
  cases r with
  | ok t => exact writeT_safeEnding t
  | error k => exact .raise k

theorem putK_safeEnding (c : Chunk) : SafeEnding s (putK s c) := by
  obtain ⟨-, hdone⟩ | ⟨-, hfault⟩ := putK_cases s c
  · rw [hdone]
    exact .done ⟨rfl, id, fun _ => rfl, id⟩
  · rw [hfault]
    exact .fault _

theorem appendO_safeEnding (v : List Byte) : SafeEnding s (appendO s v) := by
  obtain ⟨-, hdone⟩ | ⟨-, hfault⟩ := appendO_cases s v
  · rw [hdone]
    exact writeOthers_safeEnding
  · rw [hfault]
    exact .fault _

theorem ite_safeEnding {b : Bool} {x y : Ending} (hx : SafeEnding s x) (hy : SafeEnding s y) :
    SafeEnding s (if b then x else y) := by
  split
  · exact hx
  · exact hy

theorem needT_safeEnding {f : TypeCode → Ending} (hf : ∀ t, SafeEnding s (f t)) : SafeEnding s (needT s f) := by
  cases hT : s.T with
  | none => rw [needT_of_none hT]; exact .fault _
  | some t => rw [needT_of_some hT]; exact hf t

theorem needK_safeEnding {f : Chunk → Ending} (hf : ∀ k, s.K = some k → SafeEnding s (f k)) :
    SafeEnding s (needK s f) := by
  cases hK : s.K with
  | none => rw [needK_of_none hK]; exact .fault _
  | some k => rw [needK_of_some hK]; exact hf k hK

theorem needP_safeEnding {f : List Chunk → Ending} (hf : ∀ q, s.P = some q → SafeEnding s (f q)) :
    SafeEnding s (needP s f) := by
  cases hP : s.P with
  | none => rw [needP_of_none hP]; exact .fault _
  | some q => rw [needP_of_some hP]; exact hf q hP

theorem predicateOfT_safeEnding (p : TypeCode → Bool) : SafeEnding s (predicateOfT p s) :=
  needT_safeEnding fun _ => putR_safeEnding _

/-! ### Every command ends safely -/

/-- Only `CH.LEN`, `CH.SER` and `CT.SER` can refuse, and each has then met a payload above `LEN_MAX`. -/
theorem exec_safeEnding (i : Instr) (hflt : s.FLT = 0) : ∃ e, exec i s = settle s e ∧ SafeEnding s e := by
  cases i with
  | nop => exact ⟨_, exec_nop hflt, writeOthers_safeEnding⟩
  | inClr => exact ⟨_, exec_inClr hflt, writeOthers_safeEnding⟩
  | inPush imm8 => exact ⟨_, exec_inPush imm8 hflt, ite_safeEnding (.fault _) writeOthers_safeEnding⟩
  | outClr => exact ⟨_, exec_outClr hflt, writeOthers_safeEnding⟩
  | movIo => exact ⟨_, exec_movIo hflt, writeOthers_safeEnding⟩
  | beEnc => exact ⟨_, exec_beEnc hflt, appendO_safeEnding _⟩
  | beDec imm8 =>
    refine ⟨_, exec_beDec imm8 hflt, ?_⟩
    cases fieldAt s.I (immOffset imm8) with
    | none => exact .raise _
    | some v => exact putR_safeEnding v
  | crcInit => exact ⟨_, exec_crcInit hflt, writeOthers_safeEnding⟩
  | crcUpd imm8 => exact ⟨_, exec_crcUpd imm8 hflt, writeOthers_safeEnding⟩
  | crcUpdi => exact ⟨_, exec_crcUpdi hflt, writeOthers_safeEnding⟩
  | crcFin => exact ⟨_, exec_crcFin hflt, putR_safeEnding _⟩
  | tcNew => exact ⟨_, exec_tcNew hflt, putT_safeEnding _⟩
  | tcNewt => exact ⟨_, exec_tcNewt hflt, putT_safeEnding _⟩
  | tcValid => exact ⟨_, exec_tcValid hflt, predicateOfT_safeEnding _⟩
  | tcCrit => exact ⟨_, exec_tcCrit hflt, predicateOfT_safeEnding _⟩
  | tcPub => exact ⟨_, exec_tcPub hflt, predicateOfT_safeEnding _⟩
  | tcRsv => exact ⟨_, exec_tcRsv hflt, predicateOfT_safeEnding _⟩
  | tcSafe => exact ⟨_, exec_tcSafe hflt, predicateOfT_safeEnding _⟩
  | tcBytes => exact ⟨_, exec_tcBytes hflt, needT_safeEnding fun _ => putR_safeEnding _⟩
  | tcText => exact ⟨_, exec_tcText hflt, needT_safeEnding fun _ => appendO_safeEnding _⟩
  | tcEq => exact ⟨_, exec_tcEq hflt, needT_safeEnding fun _ => needK_safeEnding fun _ _ => putR_safeEnding _⟩
  | chNew => exact ⟨_, exec_chNew hflt, needT_safeEnding fun _ => putK_safeEnding _⟩
  | chLen =>
    refine ⟨_, exec_chLen hflt, needK_safeEnding fun k hK => ?_⟩
    cases hlen : chunkLength k with
    | none => exact .refuse _ (.inl ⟨k, hK, chunkLength_eq_none_iff.1 hlen⟩)
    | some len => exact putR_safeEnding len
  | chCrc => exact ⟨_, exec_chCrc hflt, needK_safeEnding fun _ _ => putR_safeEnding _⟩
  | chType => exact ⟨_, exec_chType hflt, needK_safeEnding fun _ _ => writeT_safeEnding _⟩
  | chData => exact ⟨_, exec_chData hflt, needK_safeEnding fun _ _ => appendO_safeEnding _⟩
  | chText =>
    refine ⟨_, exec_chText hflt, needK_safeEnding fun k _ => ?_⟩
    cases chunkPayloadAsText k with
    | error e => exact .raise e
    | ok text => exact appendO_safeEnding text
  | chSer =>
    refine ⟨_, exec_chSer hflt, needK_safeEnding fun k hK => ?_⟩
    cases hout : chunkSerialize k with
    | none => exact .refuse _ (.inl ⟨k, hK, chunkSerialize_eq_none_iff.1 hout⟩)
    | some out => exact appendO_safeEnding out
  | chParse =>
    refine ⟨_, exec_chParse hflt, ?_⟩
    cases chunkParse s.I with
    | error e => exact .raise e
    | ok c => exact putK_safeEnding c
  | ctNew => exact ⟨_, exec_ctNew hflt, writeP_safeEnding _⟩
  | ctParse =>
    refine ⟨_, exec_ctParse hflt, ?_⟩
    cases containerParse s.I with
    | error k => exact .raise k
    | ok q => exact ite_safeEnding (writeP_safeEnding q) (.fault _)
  | ctSer =>
    refine ⟨_, exec_ctSer hflt, needP_safeEnding fun q hP => ?_⟩
    cases hout : containerSerialize q with
    | none => exact .refuse _ (.inr ⟨q, hP, containerSerialize_eq_none_iff.1 hout⟩)
    | some out => exact appendO_safeEnding out
  | ctAppend =>
    exact ⟨_, exec_ctAppend hflt, needP_safeEnding fun _ _ => needK_safeEnding fun _ _ =>
      ite_safeEnding (.fault _) (writeP_safeEnding _)⟩
  | ctFind =>
    refine ⟨_, exec_ctFind hflt, needP_safeEnding fun q _ => ?_⟩
    cases containerFind q s.I with
    | none => exact writeOthers_safeEnding
    | some c => exact .done ⟨rfl, id, fun _ => rfl, id⟩
  | ctRemove =>
    refine ⟨_, exec_ctRemove hflt, needP_safeEnding fun q _ => ?_⟩
    cases containerRemove q s.I with
    | none => exact .raise _
    | some r => exact .done ⟨rfl, id, fun _ => rfl, fun _ => rfl⟩

end

/-! ### Steps that take a command word -/

/-- R300: a word presented to a running block ends safely, a reserved one as the `IllegalCommand` fault. -/
theorem step_safeEnding_of_command {s : State} {w : CommandWord} {rest : List HostEvent}
    (hp : s.pending = .command w :: rest) (hflt : s.FLT = 0) :
    ∃ e, step s = settle { s with pending := rest } e ∧ SafeEnding { s with pending := rest } e := by
  cases hd : decodeWord w with
  | ok i =>
    rw [step_of_decoded hp hd]
    exact exec_safeEnding i hflt
  | error e =>
    rw [step_of_undecoded hp hd]
    exact ⟨.fault .illegalCommand, envelope_of_running hflt, .fault _⟩

theorem step_keeps_of_command {s t : State} {w : CommandWord} {rest : List HostEvent}
    (hp : s.pending = .command w :: rest) (h : step s = .next t) : s.Keeps t := by
  by_cases hflt : s.FLT = 0
  · obtain ⟨e, hstep, he⟩ := step_safeEnding_of_command hp hflt
    obtain ⟨hcaps, hT, hK, hP⟩ := he.keeps (hstep.symm.trans h)
    exact ⟨hcaps, hT, hK, hP⟩
  · cases (step_of_faulted hp hflt).symm.trans h
    exact ⟨rfl, id, id, id⟩

/-- R38: a word leaves a nonzero `FLT` as it is. -/
theorem step_FLT_of_faulted {s t : State} {w : CommandWord} {rest : List HostEvent}
    (hp : s.pending = .command w :: rest) (hflt : s.FLT ≠ 0) (h : step s = .next t) : t.FLT = s.FLT := by
  cases (step_of_faulted hp hflt).symm.trans h
  rfl

theorem step_answers {s : State} (hs : ¬ s.HoldsOverlong) : ∃ t, step s = .next t := by
  match hp : s.pending with
  | [] => exact ⟨_, step_of_nothing hp⟩
  | .reset :: rest => exact ⟨_, step_of_reset hp⟩
  | .command w :: rest =>
    by_cases hflt : s.FLT = 0
    · obtain ⟨e, hstep, he⟩ := step_safeEnding_of_command hp hflt
      obtain ⟨t, ht⟩ := he.answers hs
      exact ⟨t, hstep.trans ht⟩
    · exact ⟨_, step_of_faulted hp hflt⟩

/-! ### The obligations -/

/-- Settles O60: no store of a state of the invariant holds a payload above `LEN_MAX`, the one ground of a refusal. -/
theorem everyStepFromTheInvariantAnswers : Obligations.EveryStepFromTheInvariantAnswers :=
  fun _ hs => step_answers (State.not_holdsOverlong_of_wf hs)

/-- Settles O2: a reset writes R46's values; an idle step and a word to a faulted block leave `FLT`. -/
theorem resetEventSetsEveryElement : Obligations.ResetEventSetsEveryElement := by
  refine ⟨fun s rest hp => ?values, fun s t h hflt hclear => ?clears, fun s t h => ?caps⟩
  case values => exact ⟨_, step_of_reset hp, rfl, rfl, rfl, rfl, rfl, rfl, rfl, rfl, rfl, rfl, rfl⟩
  case clears =>
    match hp : s.pending with
    | [] =>
      cases (step_of_nothing hp).symm.trans h
      exact absurd hclear hflt
    | .reset :: rest => exact ⟨rest, rfl⟩
    | .command w :: rest => exact absurd ((step_FLT_of_faulted hp hflt h).symm.trans hclear) hflt
  case caps =>
    match hp : s.pending with
    | [] => cases (step_of_nothing hp).symm.trans h; rfl
    | .reset :: rest => cases (step_of_reset hp).symm.trans h; rfl
    | .command w :: rest => exact (step_keeps_of_command hp h).caps

/-- Settles O3: the command keeps the valid bits, and a block with a fault bit set ignores the word (R36). -/
theorem onlyResetClearsValidBitsAndFaults : Obligations.OnlyResetClearsValidBitsAndFaults := by
  intro s t w rest hp h
  obtain ⟨-, hT, hK, hP⟩ := step_keeps_of_command hp h
  refine ⟨hT, hK, hP, fun b hb => ?_⟩
  have hflt : s.FLT ≠ 0 := fun h0 => by simp [h0] at hb
  rw [step_FLT_of_faulted hp hflt h]
  exact hb

/-- Settles O38: above `LEN_MAX` there is neither a length nor a record, so none of the three bodies has a result. -/
theorem overlongPayloadIsRefused : Obligations.OverlongPayloadIsRefused := by
  refine ⟨fun k s hflt hK hlong => ⟨?len, ?ser⟩, fun q k s hflt hP hmem hlong => ?container⟩
  case len => rw [exec_chLen hflt, needK_of_some hK, chunkLength_eq_none_iff.2 hlong]; rfl
  case ser => rw [exec_chSer hflt, needK_of_some hK, chunkSerialize_eq_none_iff.2 hlong]; rfl
  case container => rw [exec_ctSer hflt, needP_of_some hP, containerSerialize_eq_none_iff.2 ⟨k, hmem, hlong⟩]; rfl

end Sys2Proof.Machine

/-! SUPPORT and PROOFS. `be32dec` (41_be32.md section 1, R151, R152). -/

namespace Sys2Proof.Machine

/-- A byte after the others moves them one byte's weight up. -/
theorem toNat_append_byte {n : Nat} (x : BitVec n) (b : Byte) : (x ++ b).toNat = x.toNat * 2 ^ 8 + b.toNat := by
  rw [BitVec.toNat_append, ← Nat.shiftLeft_add_eq_or_of_lt b.isLt, Nat.shiftLeft_eq]

theorem be32pack_toNat (b0 b1 b2 b3 : Byte) : (be32pack b0 b1 b2 b3).toNat =
    b0.toNat * 2 ^ 24 + b1.toNat * 2 ^ 16 + b2.toNat * 2 ^ 8 + b3.toNat := by
  rw [be32pack, toNat_append_byte, toNat_append_byte, toNat_append_byte]
  omega

theorem be32dec_eq_some_iff {bs : List Byte} {v : U32} : be32dec bs = some v ↔ bs = be32enc v := by
  constructor
  · intro h
    obtain ⟨u, rfl⟩ := exists_be32enc_of_length (be32dec_isSome_iff.1 (Option.isSome_of_eq_some h))
    rw [Option.some.inj ((be32dec_be32enc u).symm.trans h)]
  · rintro rfl
    exact be32dec_be32enc v

/-- Settles O16: four bytes weighted by their places, and only the bytes of `be32enc v` decode to `v`. -/
theorem be32DecIsTheWeightedSumAndInverse : Obligations.Be32DecIsTheWeightedSumAndInverse :=
  ⟨fun b0 b1 b2 b3 => ⟨_, rfl, be32pack_toNat b0 b1 b2 b3⟩, fun _ _ => be32dec_eq_some_iff⟩

end Sys2Proof.Machine
